-- ==== Sys2Proof/Word.lean ====
section
/-! DEFINITION. The widths of the b8 core (00_scope.md R7, R10): every value is unsigned. -/

namespace Sys2Proof

/-- A byte: a general register, a timer, a memory cell, the immediate `kk` (R7, REG_W, TIMER_W). -/
abbrev Byte := BitVec 8

/-- A 16-bit word: an instruction word, `pc`, `I`, a stack entry (R7, PC_W, I_W, STACK_W, INSTR_W). -/
abbrev Word := BitVec 16

/-- The 12-bit address or immediate field `nnn` (R55). -/
abbrev Addr := BitVec 12

/-- The index of a general register V0 to VF, or of a key (R15, R28). -/
abbrev RegIdx := Fin 16

end Sys2Proof
end

