-- ==== Sys2Proof/Syntax.lean ====
section
/-! DEFINITION. The instructions: one constructor per row of the opcode map, in its order (30_encoding.md R58).
A nibble that the instruction ignores is no operand (log entries 8 and 9). -/

namespace Sys2Proof

/-- The 35 instructions of R58. `x` and `y` are register indexes, `kk` an 8-bit immediate, `nnn` a 12-bit address,
`n` a row count (R55, R57). -/
inductive Instr where
  /-- 00E0 CLS (R107) -/
  | cls
  /-- 00EE RET (R74) -/
  | ret
  /-- 0nnn SYS nnn, every class-0 word that is neither CLS nor RET (R75) -/
  | sys (nnn : Addr)
  /-- 1nnn JP nnn (R76) -/
  | jp (nnn : Addr)
  /-- 2nnn CALL nnn (R77) -/
  | call (nnn : Addr)
  /-- 3xkk SE Vx, kk (R79) -/
  | seImm (x : RegIdx) (kk : Byte)
  /-- 4xkk SNE Vx, kk (R80) -/
  | sneImm (x : RegIdx) (kk : Byte)
  /-- 5xyn SE Vx, Vy (R81) -/
  | seReg (x y : RegIdx)
  /-- 6xkk LD Vx, kk (R86) -/
  | ldImm (x : RegIdx) (kk : Byte)
  /-- 7xkk ADD Vx, kk (R87) -/
  | addImm (x : RegIdx) (kk : Byte)
  /-- 8xy0 LD Vx, Vy (R88) -/
  | ldReg (x y : RegIdx)
  /-- 8xy1 OR Vx, Vy (R89) -/
  | orReg (x y : RegIdx)
  /-- 8xy2 AND Vx, Vy (R90) -/
  | andReg (x y : RegIdx)
  /-- 8xy3 XOR Vx, Vy (R91) -/
  | xorReg (x y : RegIdx)
  /-- 8xy4 ADD Vx, Vy (R92) -/
  | addReg (x y : RegIdx)
  /-- 8xy5 SUB Vx, Vy (R93) -/
  | sub (x y : RegIdx)
  /-- 8xy6 SHR Vx (R94) -/
  | shr (x : RegIdx)
  /-- 8xy7 SUBN Vx, Vy (R95) -/
  | subn (x y : RegIdx)
  /-- 8xyE SHL Vx (R96) -/
  | shl (x : RegIdx)
  /-- 9xyn SNE Vx, Vy (R82) -/
  | sneReg (x y : RegIdx)
  /-- Annn LD I, nnn (R101) -/
  | ldI (nnn : Addr)
  /-- Bnnn JP V0, nnn (R83) -/
  | jpV0 (nnn : Addr)
  /-- Cxkk RND Vx, kk (R97) -/
  | rnd (x : RegIdx) (kk : Byte)
  /-- Dxyn DRW Vx, Vy, n (R108) -/
  | drw (x y : RegIdx) (n : Fin 16)
  /-- Ex9E SKP Vx (R110) -/
  | skp (x : RegIdx)
  /-- ExA1 SKNP Vx (R111) -/
  | sknp (x : RegIdx)
  /-- Fx07 LD Vx, DT (R112) -/
  | ldVxDt (x : RegIdx)
  /-- Fx0A LD Vx, K (R113) -/
  | ldVxK (x : RegIdx)
  /-- Fx15 LD DT, Vx (R114) -/
  | ldDtVx (x : RegIdx)
  /-- Fx18 LD ST, Vx (R115) -/
  | ldStVx (x : RegIdx)
  /-- Fx1E ADD I, Vx (R102) -/
  | addI (x : RegIdx)
  /-- Fx2n LD F, Vx (R103) -/
  | ldF (x : RegIdx)
  /-- Fx3n LD B, Vx (R104) -/
  | ldB (x : RegIdx)
  /-- Fx5n LD [I], Vx (R105) -/
  | stRegs (x : RegIdx)
  /-- Fx6n LD Vx, [I] (R106) -/
  | ldRegs (x : RegIdx)
deriving DecidableEq, Repr

end Sys2Proof
end

