-- ==== Sys2Proof/WellFormed.lean ====
section
/-! DEFINITION. Which terms of `Instr` are instructions of the machine. Every operand's width is in its type; the one
check left is that `SYS nnn` is a class-0 word that is neither CLS nor RET (30_encoding.md R58 row 3, R60). -/

namespace Sys2Proof

/-- `SYS nnn` takes every class-0 word but those whose low byte is that of CLS or RET (R60, case 0x0). -/
def sysOperandOk (nnn : Addr) : Bool :=
  nnn.setWidth 8 ≠ 0xE0#8 && nnn.setWidth 8 ≠ 0xEE#8

/-- The well-formed instructions: those that some word encodes. -/
def Instr.wellFormed : Instr → Bool
  | .sys nnn => sysOperandOk nnn
  | .cls | .ret | .jp _ | .call _ | .seImm _ _ | .sneImm _ _ | .seReg _ _ | .ldImm _ _ | .addImm _ _
  | .ldReg _ _ | .orReg _ _ | .andReg _ _ | .xorReg _ _ | .addReg _ _ | .sub _ _ | .shr _ | .subn _ _ | .shl _
  | .sneReg _ _ | .ldI _ | .jpV0 _ | .rnd _ _ | .drw _ _ _ | .skp _ | .sknp _ | .ldVxDt _ | .ldVxK _
  | .ldDtVx _ | .ldStVx _ | .addI _ | .ldF _ | .ldB _ | .stRegs _ | .ldRegs _ => true

end Sys2Proof
end

