-- ==== Sys2Proof/Decode.lean ====
section
/-! DEFINITION. The decoder and the encoder (30_encoding.md R54 to R62), with the bit-field and byte-order helpers. -/

namespace Sys2Proof

/-- Why the decoder finds no instruction in the bytes. The first three are the UNDEFINED words of R61, which the step
executes as no-ops (R62; 40_cycle.md R70); the last is no fault of the machine, whose fetch always reads two bytes. -/
inductive DecodeReject where
  /-- 8xyn with a discriminant `n` outside the table -/
  | undefinedClass8 (n : BitVec 4)
  /-- Exkk with a discriminant `kk` outside the table -/
  | undefinedClassE (kk : Byte)
  /-- Fxyn with discriminants `y`, `n` outside the table -/
  | undefinedClassF (y n : BitVec 4)
  /-- fewer than two bytes were given -/
  | truncated
deriving DecidableEq, Repr

/-! ## Byte order (20_memory.md R43) and fields (R55) -/

/-- The byte at the lower address is bits 15..8 (R43). -/
def wordOfBytes (hi lo : Byte) : Word := hi ++ lo

/-- The byte that lies at the lower address (R43). -/
def highByte (w : Word) : Byte := w.extractLsb' 8 8

/-- The byte that lies at the higher address (R43). -/
def lowByte (w : Word) : Byte := w.extractLsb' 0 8

/-- A 4-bit register field as a register index (R57: all 16 values name a register). -/
def regOfNibble (b : BitVec 4) : RegIdx := ⟨b.toNat, b.isLt⟩

/-- A register index or a row count as its 4-bit field. -/
def nibbleOf (r : Fin 16) : BitVec 4 := BitVec.ofNat 4 r.val

/-- class = w[15:12] -/
def fieldClass (w : Word) : BitVec 4 := w.extractLsb' 12 4

/-- x = w[11:8], a register index -/
def fieldX (w : Word) : RegIdx := regOfNibble (w.extractLsb' 8 4)

/-- w[7:4] as bits: y where it is a discriminant -/
def fieldYBits (w : Word) : BitVec 4 := w.extractLsb' 4 4

/-- y = w[7:4], a register index -/
def fieldY (w : Word) : RegIdx := regOfNibble (fieldYBits w)

/-- w[3:0] as bits: n where it is a discriminant -/
def fieldNBits (w : Word) : BitVec 4 := w.extractLsb' 0 4

/-- n = w[3:0], the row count of DRW -/
def fieldN (w : Word) : Fin 16 := regOfNibble (fieldNBits w)

/-- kk = w[7:0] -/
def fieldKK (w : Word) : Byte := w.extractLsb' 0 8

/-- nnn = w[11:0] -/
def fieldNNN (w : Word) : Addr := w.extractLsb' 0 12

/-! ## The decoder (R60), class by class -/

/-- Class 0x0 is decoded on kk alone; the x nibble of CLS and RET is ignored (R60; D4, D5). -/
def decodeClass0 (w : Word) : Except DecodeReject Instr :=
  if fieldKK w = 0xE0#8 then .ok .cls
  else if fieldKK w = 0xEE#8 then .ok .ret
  else .ok (.sys (fieldNNN w))

/-- Class 0x8 is decoded on n; SHR and SHL ignore y (R60; R94, R96). -/
def decodeClass8 (w : Word) : Except DecodeReject Instr :=
  match (fieldNBits w).toNat with
  | 0x0 => .ok (.ldReg (fieldX w) (fieldY w))
  | 0x1 => .ok (.orReg (fieldX w) (fieldY w))
  | 0x2 => .ok (.andReg (fieldX w) (fieldY w))
  | 0x3 => .ok (.xorReg (fieldX w) (fieldY w))
  | 0x4 => .ok (.addReg (fieldX w) (fieldY w))
  | 0x5 => .ok (.sub (fieldX w) (fieldY w))
  | 0x6 => .ok (.shr (fieldX w))
  | 0x7 => .ok (.subn (fieldX w) (fieldY w))
  | 0xE => .ok (.shl (fieldX w))
  | _ => .error (.undefinedClass8 (fieldNBits w))

/-- Class 0xE is decoded on kk (R60). -/
def decodeClassE (w : Word) : Except DecodeReject Instr :=
  if fieldKK w = 0x9E#8 then .ok (.skp (fieldX w))
  else if fieldKK w = 0xA1#8 then .ok (.sknp (fieldX w))
  else .error (.undefinedClassE (fieldKK w))

/-- Class 0xF is decoded on y, and on n where the table names an n (R60; D6). -/
def decodeClassF (w : Word) : Except DecodeReject Instr :=
  match (fieldYBits w).toNat, (fieldNBits w).toNat with
  | 0x0, 0x7 => .ok (.ldVxDt (fieldX w))
  | 0x0, 0xA => .ok (.ldVxK (fieldX w))
  | 0x1, 0x5 => .ok (.ldDtVx (fieldX w))
  | 0x1, 0x8 => .ok (.ldStVx (fieldX w))
  | 0x1, 0xE => .ok (.addI (fieldX w))
  | 0x2, _ => .ok (.ldF (fieldX w))
  | 0x3, _ => .ok (.ldB (fieldX w))
  | 0x5, _ => .ok (.stRegs (fieldX w))
  | 0x6, _ => .ok (.ldRegs (fieldX w))
  | _, _ => .error (.undefinedClassF (fieldYBits w) (fieldNBits w))

/-- The decoder of R60: total on words, an instruction or UNDEFINED by name. -/
def decode (w : Word) : Except DecodeReject Instr :=
  match (fieldClass w).toNat with
  | 0x0 => decodeClass0 w
  | 0x1 => .ok (.jp (fieldNNN w))
  | 0x2 => .ok (.call (fieldNNN w))
  | 0x3 => .ok (.seImm (fieldX w) (fieldKK w))
  | 0x4 => .ok (.sneImm (fieldX w) (fieldKK w))
  | 0x5 => .ok (.seReg (fieldX w) (fieldY w))
  | 0x6 => .ok (.ldImm (fieldX w) (fieldKK w))
  | 0x7 => .ok (.addImm (fieldX w) (fieldKK w))
  | 0x8 => decodeClass8 w
  | 0x9 => .ok (.sneReg (fieldX w) (fieldY w))
  | 0xA => .ok (.ldI (fieldNNN w))
  | 0xB => .ok (.jpV0 (fieldNNN w))
  | 0xC => .ok (.rnd (fieldX w) (fieldKK w))
  | 0xD => .ok (.drw (fieldX w) (fieldY w) (fieldN w))
  | 0xE => decodeClassE w
  | _ => decodeClassF w

/-- The decoder on the bytes as they lie in memory: the instruction and the bytes after it (R43, R54). -/
def decodeBytes : List Byte → Except DecodeReject (Instr × List Byte)
  | hi :: lo :: rest => (decode (wordOfBytes hi lo)).map (fun i => (i, rest))
  | _ => .error .truncated

/-! ## The encoder (R56, R58) -/

/-- Layout NNN: `cccc nnnn nnnn nnnn`. -/
def formatNNN (c : BitVec 4) (nnn : Addr) : Word := c ++ nnn

/-- Layouts XKK and XD: `cccc xxxx kkkk kkkk`, kk an immediate or a discriminant. -/
def formatXKK (c : BitVec 4) (x : RegIdx) (kk : Byte) : Word := c ++ nibbleOf x ++ kk

/-- Layouts XYN and XY-: `cccc xxxx yyyy nnnn`. -/
def formatXYN (c : BitVec 4) (x y n : Fin 16) : Word := c ++ nibbleOf x ++ nibbleOf y ++ nibbleOf n

/-- The word of an instruction. A nibble the instruction ignores is written as the conventional spelling has it (R58:
00E0, 00EE, 5xy0, 9xy0, Fx29, Fx33, Fx55, Fx65; 8x06 and 8x0E as in the examples of R94, R96): log entry 9. -/
def encode : Instr → Word
  | .cls => formatXKK 0x0#4 0 0xE0#8
  | .ret => formatXKK 0x0#4 0 0xEE#8
  | .sys nnn => formatNNN 0x0#4 nnn
  | .jp nnn => formatNNN 0x1#4 nnn
  | .call nnn => formatNNN 0x2#4 nnn
  | .seImm x kk => formatXKK 0x3#4 x kk
  | .sneImm x kk => formatXKK 0x4#4 x kk
  | .seReg x y => formatXYN 0x5#4 x y 0x0
  | .ldImm x kk => formatXKK 0x6#4 x kk
  | .addImm x kk => formatXKK 0x7#4 x kk
  | .ldReg x y => formatXYN 0x8#4 x y 0x0
  | .orReg x y => formatXYN 0x8#4 x y 0x1
  | .andReg x y => formatXYN 0x8#4 x y 0x2
  | .xorReg x y => formatXYN 0x8#4 x y 0x3
  | .addReg x y => formatXYN 0x8#4 x y 0x4
  | .sub x y => formatXYN 0x8#4 x y 0x5
  | .shr x => formatXYN 0x8#4 x 0x0 0x6
  | .subn x y => formatXYN 0x8#4 x y 0x7
  | .shl x => formatXYN 0x8#4 x 0x0 0xE
  | .sneReg x y => formatXYN 0x9#4 x y 0x0
  | .ldI nnn => formatNNN 0xA#4 nnn
  | .jpV0 nnn => formatNNN 0xB#4 nnn
  | .rnd x kk => formatXKK 0xC#4 x kk
  | .drw x y n => formatXYN 0xD#4 x y n
  | .skp x => formatXKK 0xE#4 x 0x9E#8
  | .sknp x => formatXKK 0xE#4 x 0xA1#8
  | .ldVxDt x => formatXKK 0xF#4 x 0x07#8
  | .ldVxK x => formatXKK 0xF#4 x 0x0A#8
  | .ldDtVx x => formatXKK 0xF#4 x 0x15#8
  | .ldStVx x => formatXKK 0xF#4 x 0x18#8
  | .addI x => formatXKK 0xF#4 x 0x1E#8
  | .ldF x => formatXKK 0xF#4 x 0x29#8
  | .ldB x => formatXKK 0xF#4 x 0x33#8
  | .stRegs x => formatXKK 0xF#4 x 0x55#8
  | .ldRegs x => formatXKK 0xF#4 x 0x65#8

/-! ## The opcode map as masks (opcode_table.json; R58) -/

/-- A row of the opcode map: a word belongs to it when its bits under `mask` are those of `bits` (the table's "match"). -/
structure TableRow where
  mask : Word
  bits : Word
deriving DecidableEq, Repr

/-- The row of opcode_table.json that an instruction belongs to. -/
def Instr.row : Instr → TableRow
  | .cls => ⟨0xF0FF#16, 0x00E0#16⟩
  | .ret => ⟨0xF0FF#16, 0x00EE#16⟩
  | .sys _ => ⟨0xF000#16, 0x0000#16⟩
  | .jp _ => ⟨0xF000#16, 0x1000#16⟩
  | .call _ => ⟨0xF000#16, 0x2000#16⟩
  | .seImm _ _ => ⟨0xF000#16, 0x3000#16⟩
  | .sneImm _ _ => ⟨0xF000#16, 0x4000#16⟩
  | .seReg _ _ => ⟨0xF000#16, 0x5000#16⟩
  | .ldImm _ _ => ⟨0xF000#16, 0x6000#16⟩
  | .addImm _ _ => ⟨0xF000#16, 0x7000#16⟩
  | .ldReg _ _ => ⟨0xF00F#16, 0x8000#16⟩
  | .orReg _ _ => ⟨0xF00F#16, 0x8001#16⟩
  | .andReg _ _ => ⟨0xF00F#16, 0x8002#16⟩
  | .xorReg _ _ => ⟨0xF00F#16, 0x8003#16⟩
  | .addReg _ _ => ⟨0xF00F#16, 0x8004#16⟩
  | .sub _ _ => ⟨0xF00F#16, 0x8005#16⟩
  | .shr _ => ⟨0xF00F#16, 0x8006#16⟩
  | .subn _ _ => ⟨0xF00F#16, 0x8007#16⟩
  | .shl _ => ⟨0xF00F#16, 0x800E#16⟩
  | .sneReg _ _ => ⟨0xF000#16, 0x9000#16⟩
  | .ldI _ => ⟨0xF000#16, 0xA000#16⟩
  | .jpV0 _ => ⟨0xF000#16, 0xB000#16⟩
  | .rnd _ _ => ⟨0xF000#16, 0xC000#16⟩
  | .drw _ _ _ => ⟨0xF000#16, 0xD000#16⟩
  | .skp _ => ⟨0xF0FF#16, 0xE09E#16⟩
  | .sknp _ => ⟨0xF0FF#16, 0xE0A1#16⟩
  | .ldVxDt _ => ⟨0xF0FF#16, 0xF007#16⟩
  | .ldVxK _ => ⟨0xF0FF#16, 0xF00A#16⟩
  | .ldDtVx _ => ⟨0xF0FF#16, 0xF015#16⟩
  | .ldStVx _ => ⟨0xF0FF#16, 0xF018#16⟩
  | .addI _ => ⟨0xF0FF#16, 0xF01E#16⟩
  | .ldF _ => ⟨0xF0F0#16, 0xF020#16⟩
  | .ldB _ => ⟨0xF0F0#16, 0xF030#16⟩
  | .stRegs _ => ⟨0xF0F0#16, 0xF050#16⟩
  | .ldRegs _ => ⟨0xF0F0#16, 0xF060#16⟩

/-- The bits of its word that an instruction does not ignore (R56: `-` is an ignored bit; D4, D6; R94, R96). -/
def Instr.careMask : Instr → Word
  | .cls | .ret => 0xF0FF#16
  | .seReg _ _ | .sneReg _ _ => 0xFFF0#16
  | .shr _ | .shl _ => 0xFF0F#16
  | .ldF _ | .ldB _ | .stRegs _ | .ldRegs _ => 0xFFF0#16
  | .sys _ | .jp _ | .call _ | .seImm _ _ | .sneImm _ _ | .ldImm _ _ | .addImm _ _ | .ldReg _ _ | .orReg _ _
  | .andReg _ _ | .xorReg _ _ | .addReg _ _ | .sub _ _ | .subn _ _ | .ldI _ | .jpV0 _ | .rnd _ _ | .drw _ _ _
  | .skp _ | .sknp _ | .ldVxDt _ | .ldVxK _ | .ldDtVx _ | .ldStVx _ | .addI _ => 0xFFFF#16

/-! ## Bits numbered as opcode_table.json numbers them -/

/-- The instruction word whose bits are the low `nbits` bits of `w`, every bit above them 0. -/
def tableWord (nbits w : Nat) : Word := BitVec.ofNat 16 (w % 2 ^ nbits)

/-- What the decoder reads from a word numbered as the table numbers it, laid out as it lies in memory. -/
def decodeTableWord (nbits w : Nat) : Option Instr :=
  match decodeBytes [highByte (tableWord nbits w), lowByte (tableWord nbits w)] with
  | .ok (i, _) => some i
  | .error _ => none

end Sys2Proof
end

