-- ==== Sys2Proof/Config.lean ====
section
/-! DEFINITION. What is fixed for this hardware (00_scope.md R7, R8) and the one free value, the draws of `Rand()`.
The FONT parameter stands in Machine/Font.lean. IPT is an argument of the schedule (Machine/HostOps.lean). -/

namespace Sys2Proof

/-- WIDTH of the framebuffer (R7, R8; conflict C8; log entry 5). -/
abbrev Config.width : Nat := 64

/-- HEIGHT of the framebuffer (R7, R8; conflict C8; log entry 5). -/
abbrev Config.height : Nat := 32

/-- The free value of 42_alu.md R98: the byte that the `k`-th draw of `Rand()` yields. It has no body, so nothing is
known of it and a statement about a draw holds for every byte (log entry 2). -/
opaque Config.freeByte : Nat → Byte

end Sys2Proof
end

