-- ==== Sys2Proof/Machine/State.lean ====
section
/-! DEFINITION. The state of the b8 core: the document's Machine State (10_state.md), all of it, as plain data. -/

namespace Sys2Proof.Machine

/-- The fault causes of 60_exceptions.md R116, each with what it records. A step that raises one commits nothing
(40_cycle.md R71). -/
inductive Fault where
  /-- Raised by CALL when sp = 16; records the CALL's own address (41_flow.md R77). The spec's own fatal error: exact. -/
  | stackOverflow (callAddress : Word)
  /-- Raised by RET when sp = 0; records the RET's own address (41_flow.md R74). The spec's own fatal error: exact. -/
  | stackUnderflow (retAddress : Word)
  /-- Raised by the fetch when pc + 1 > 0xFFF; records pc (40_cycle.md R68; D7). Safe: the block may go on there. -/
  | fetchOutOfRange (pc : Word)
  /-- Raised by DRW, LD_B, ST_REGS, LD_REGS when an address above 0xFFF would be touched; records the highest such
  address, an unbounded natural (20_memory.md R44; D8). Safe: the block may go on there. -/
  | memoryOutOfRange (address : Nat)
  /-- Raised by SKP and SKNP when V[x] > 0xF; records V[x] (44 R110, R111; D9). Safe: the block may go on there. -/
  | keyIndexOutOfRange (value : Byte)
  /-- Returned by the host operation `load` for an unreadable or too long image (70_reset_and_hazards.md R133). No step
  raises it and it does not halt the block (60_exceptions.md R117): exact. -/
  | loadError
deriving DecidableEq, Repr

/-- What the model has no meaning for. No instruction is refused: the two others are answers to host operations. -/
inductive Refusal where
  /-- An instruction without a meaning; no arm of `exec` answers it. Safe. -/
  | notModelled (mnemonic : String)
  /-- `load` after a load, after a step or in the Halted state (70_reset_and_hazards.md R134; D27; U15). Safe. -/
  | loadNotOpen
  /-- `set_key` of a symbol outside 0..15 (60_exceptions.md R125; U16). Safe. -/
  | keySymbolOutOfRange (symbol : Nat)
deriving DecidableEq, Repr

/-- The run state (10_state.md R31). -/
inductive RunState where
  | running
  | halted (cause : Fault)
deriving DecidableEq, Repr

/-- Memory: the cells that differ from the contents at reset, sorted by address (see `Memory.wf`; log entry 4). -/
abbrev Memory := List Host.Cell

/-- One framebuffer row (R27). -/
abbrev PixelRow := Vector Bool Config.width

/-- The framebuffer, row by row: `gfx[r][c]` (R27). -/
abbrev Gfx := Vector PixelRow Config.height

/-- The Machine State. -/
structure State where
  /-- V0..VF (R15); VF is the flag register (R16). -/
  v : Vector Byte 16
  /-- The index register I (R19). -/
  i : Word
  /-- The program counter (R20). -/
  pc : Word
  /-- The return-address stack (R23). -/
  stack : Vector Word 16
  /-- The number of stack entries in use (R23). -/
  sp : Fin 17
  /-- The delay timer DT (R25). -/
  dt : Byte
  /-- The sound timer ST (R26). -/
  st : Byte
  /-- The framebuffer (R27). -/
  gfx : Gfx
  /-- The key matrix (R28). -/
  key : Vector Bool 16
  /-- The most recently fetched instruction word (R29). -/
  opcode : Word
  /-- Set by CLS and DRW, cleared at the start of every step (R30). -/
  redraw : Bool
  /-- Running or Halted(cause) (R31). -/
  run : RunState
  /-- The 4096 bytes of memory (R32). -/
  mem : Memory
  /-- No load has succeeded and no step has completed since reset (R134; log entry 12). -/
  loadOpen : Bool
  /-- The model's own field: how many draws `Rand()` has made (R98; log entry 2). -/
  draws : Nat
deriving DecidableEq, Repr

/-- The state after `reset` (R36, R131). Memory lists nothing: it holds its reset contents. -/
def State.reset : State where
  v := Vector.replicate 16 0
  i := 0
  pc := 0x200#16
  stack := Vector.replicate 16 0
  sp := 0
  dt := 0
  st := 0
  gfx := Vector.replicate Config.height (Vector.replicate Config.width false)
  key := Vector.replicate 16 false
  opcode := 0
  redraw := false
  run := .running
  mem := []
  loadOpen := true
  draws := 0

end Sys2Proof.Machine
end

