-- ==== Sys2Proof/Machine/Font.lean ====
section
/-! DEFINITION. The FONT parameter at its default (10_state.md R33; D12): glyphs 0 to F, five bytes each, at 0x050. -/

namespace Sys2Proof.Machine

/-- The 80 bytes of the conventional table of R33. PRESUMED: the spec marks the bytes as general knowledge (log entry 3). -/
def fontBytes : List Byte :=
  [0xF0#8, 0x90#8, 0x90#8, 0x90#8, 0xF0#8] ++ [0x20#8, 0x60#8, 0x20#8, 0x20#8, 0x70#8] ++
  [0xF0#8, 0x10#8, 0xF0#8, 0x80#8, 0xF0#8] ++ [0xF0#8, 0x10#8, 0xF0#8, 0x10#8, 0xF0#8] ++
  [0x90#8, 0x90#8, 0xF0#8, 0x10#8, 0x10#8] ++ [0xF0#8, 0x80#8, 0xF0#8, 0x10#8, 0xF0#8] ++
  [0xF0#8, 0x80#8, 0xF0#8, 0x90#8, 0xF0#8] ++ [0xF0#8, 0x10#8, 0x20#8, 0x40#8, 0x40#8] ++
  [0xF0#8, 0x90#8, 0xF0#8, 0x90#8, 0xF0#8] ++ [0xF0#8, 0x90#8, 0xF0#8, 0x10#8, 0xF0#8] ++
  [0xF0#8, 0x90#8, 0xF0#8, 0x90#8, 0x90#8] ++ [0xE0#8, 0x90#8, 0xE0#8, 0x90#8, 0xE0#8] ++
  [0xF0#8, 0x80#8, 0x80#8, 0x80#8, 0xF0#8] ++ [0xE0#8, 0x90#8, 0x90#8, 0x90#8, 0xE0#8] ++
  [0xF0#8, 0x80#8, 0xF0#8, 0x80#8, 0xF0#8] ++ [0xF0#8, 0x80#8, 0xF0#8, 0x80#8, 0x80#8]

/-- FONT_BASE (R7, R33). -/
def fontBase : Nat := 0x050

/-- What a byte of memory holds at reset: FONT at 0x050..0x09F, 0 elsewhere (R36, R131). This is what an address that
the memory does not list reads as (log entry 4). -/
def resetByte (a : Nat) : Byte :=
  if fontBase ≤ a then fontBytes.getD (a - fontBase) 0 else 0

end Sys2Proof.Machine
end

