-- ==== Sys2Proof/Machine/Ops.lean ====
section
/-! DEFINITION. The named operations over memory, registers, the stack and the framebuffer, the fetch, and the one
operation that raises a fault. -/

namespace Sys2Proof.Machine

/-- What one step or one meaning answers. -/
abbrev Result := Host.Outcome State Fault Refusal

/-! ## Memory (20_memory.md) -/

/-- The last byte address (R39). -/
def lastAddress : Nat := 0xFFF

/-- The byte at an address: the listed one, else the reset contents (R32, R36). -/
def Memory.read : Memory → Nat → Byte
  | [], a => resetByte a
  | (b, u) :: rest, a => if b = a then u else Memory.read rest a

/-- A cell put in its place in a list sorted by address. -/
def Memory.insertCell (c : Host.Cell) : Memory → Memory
  | [] => [c]
  | e :: es => if c.1 < e.1 then c :: e :: es else e :: Memory.insertCell c es

/-- A byte written, in canonical form: the list stays sorted, and a byte equal to the reset contents is not listed. -/
def Memory.write (m : Memory) (a : Nat) (d : Byte) : Memory :=
  let others : Memory := m.filter (fun c => c.1 ≠ a)
  if d = resetByte a then others else Memory.insertCell (a, d) others

/-- The canonical form: addresses strictly rising, inside the 4096 bytes, and no cell equal to the reset contents. -/
abbrev Memory.wf (m : Memory) : Prop :=
  m.Pairwise (fun c d => c.1 < d.1) ∧ ∀ c ∈ m, c.1 ≤ lastAddress ∧ c.2 ≠ resetByte c.1

/-- `n` bytes from `a` up, in ascending order (R47). -/
def Memory.readBytes (m : Memory) : Nat → Nat → List Byte
  | _, 0 => []
  | a, n + 1 => Memory.read m a :: Memory.readBytes m (a + 1) n

/-- Bytes written from `a` up, in ascending order (R47). -/
def Memory.writeBytes (m : Memory) : Nat → List Byte → Memory
  | _, [] => m
  | a, d :: ds => Memory.writeBytes (Memory.write m a d) (a + 1) ds

/-- `MemRead(a, 1)` for an address already checked (00_scope.md R11). -/
def State.readByte (s : State) (a : Nat) : Byte := s.mem.read a

/-- `MemWrite` of successive bytes for addresses already checked. -/
def State.storeBytes (s : State) (a : Nat) (ds : List Byte) : State := { s with mem := s.mem.writeBytes a ds }

/-! ## Registers -/

/-- `V[x]` (R11, R15: no register is hard-wired or banked). -/
def State.getV (s : State) (x : RegIdx) : Byte := s.v[x.val]

/-- `V[x] <- b` -/
def State.setV (s : State) (x : RegIdx) (b : Byte) : State := { s with v := s.v.set x.val b x.isLt }

/-- VF, register 0xF, the flag register (R16). -/
abbrev vf : RegIdx := 15

/-- `I <- a` -/
def State.setI (s : State) (a : Word) : State := { s with i := a }

/-- `pc <- a` -/
def State.setPc (s : State) (a : Word) : State := { s with pc := a }

/-- `DT <- b` -/
def State.setDt (s : State) (b : Byte) : State := { s with dt := b }

/-- `ST <- b` -/
def State.setSt (s : State) (b : Byte) : State := { s with st := b }

/-- `V[0], .., V[x]` in that order, as ST_REGS stores them (43 R105). -/
def State.regsUpTo (s : State) (x : RegIdx) : List Byte := s.v.toList.take (x.val + 1)

/-- `V[r] <- memory[a + r]` for every `r` in `0..x`, the other registers unchanged (43 R106). -/
def State.loadRegsFrom (s : State) (a : Nat) (x : RegIdx) : State :=
  { s with v := Vector.ofFn fun r : Fin 16 => if r ≤ x then s.readByte (a + r.val) else s.getV r }

/-- A fresh draw of `Rand()` and the state after it (42 R98; log entry 2). -/
def State.draw (s : State) : Byte × State := (Config.freeByte s.draws, { s with draws := s.draws + 1 })

/-! ## Program counter (40_cycle.md) -/

/-- `skip()`: pc + 2 once more (R72). -/
def State.skip (s : State) : State := s.setPc (s.pc + 2)

/-- `if c: skip()` -/
def State.skipIf (s : State) (c : Bool) : State := if c then s.skip else s

/-- `pc <- pc - 2`, back to the executing instruction (44 R113). -/
def State.rewind (s : State) : State := s.setPc (s.pc - 2)

/-- The address the executing instruction was fetched from: pc is two past it in step 5 (R21; 60 R116). -/
def State.instrAddress (s : State) : Word := s.pc - 2

/-! ## Return-address stack (10_state.md R23, R24) -/

/-- `stack[sp] <- a; sp <- sp + 1`, none when sp = 16. -/
def State.push (s : State) (a : Word) : Option State :=
  if h : s.sp.val < 16 then
    some { s with stack := s.stack.set s.sp.val a h, sp := ⟨s.sp.val + 1, by omega⟩ }
  else none

/-- `sp <- sp - 1` and the entry `stack[sp]`, which keeps its value (R24; D26); none when sp = 0. -/
def State.pop (s : State) : Option (Word × State) :=
  if h : 0 < s.sp.val then
    some (s.stack[s.sp.val - 1]'(by have := s.sp.isLt; omega), { s with sp := ⟨s.sp.val - 1, by have := s.sp.isLt; omega⟩ })
  else none

/-! ## Framebuffer (10_state.md R27, R30) -/

/-- `gfx[r][c]` -/
def Gfx.pixel (g : Gfx) (r : Fin Config.height) (c : Fin Config.width) : Bool := (g[r.val])[c.val]

/-- `gfx[r][c] <- gfx[r][c] XOR 1` -/
def Gfx.flip (g : Gfx) (r : Fin Config.height) (c : Fin Config.width) : Gfx :=
  g.set r.val ((g[r.val]).set c.val (!g.pixel r c) c.isLt) r.isLt

/-- The framebuffer with every pixel 0. -/
def Gfx.clear : Gfx := Vector.replicate Config.height (Vector.replicate Config.width false)

/-- A new framebuffer, and `redraw <- true`: what CLS and DRW alone do (R30; conflict C6). -/
def State.setGfx (s : State) (g : Gfx) : State := { s with gfx := g, redraw := true }

/-! ## Keys (10_state.md R28) -/

/-- `key[k]` -/
def State.keyDown (s : State) (k : RegIdx) : Bool := s.key[k.val]

/-- The lowest pressed key, scanning 0 to 15 (44 R113). -/
def State.lowestKey (s : State) : Option RegIdx := (List.finRange 16).find? s.keyDown

/-! ## Faults (60_exceptions.md) -/

/-- `raise Fault(cause)`: the step ends with the cause and commits nothing (R117; 40 R71). The outcome carries no state;
`State.halt` is the state it leaves (log entry 1). There is no handler and no return from a fault (R118). -/
def raise (cause : Fault) : Result := .fault cause

/-- The state after a step that raised `cause` in state `s`: `s` with run state Halted(cause) (40 R71). -/
def State.halt (s : State) (cause : Fault) : State := { s with run := .halted cause }

/-- The range check that precedes every data access: with `last` the highest address to be touched, fault when it is
above 0xFFF, else go on (20 R44). -/
def checkRange (last : Nat) (go : Result) : Result :=
  if last > lastAddress then raise (.memoryOutOfRange last) else go

/-! ## The fetch and the no-op (40_cycle.md) -/

/-- Both bytes at pc exist: pc + 1 <= 0xFFF on unbounded naturals (R68; 20 R44). -/
def State.fetchable (s : State) : Bool := s.pc.toNat + 1 ≤ lastAddress

/-- The word at pc, big-endian (R68; 20 R43). -/
def State.fetchWord (s : State) : Word := wordOfBytes (s.readByte s.pc.toNat) (s.readByte (s.pc.toNat + 1))

/-- The state in which step 5 runs: redraw false, opcode the fetched word, pc two further (R66 steps 1 to 3), and no
load any more (70 R134). -/
def State.fetched (s : State) : State :=
  { s with redraw := false, opcode := s.fetchWord, pc := s.pc + 2, loadOpen := false }

/-- Step 5 of an instruction that does nothing (R70). -/
def noOperation (s : State) : Result := .next s

end Sys2Proof.Machine
end

