-- ==== Sys2Proof/Machine/Flags.lean ====
section
/-! DEFINITION. The values written to VF, the only flag (10_state.md R34; 42_alu.md R85). -/

namespace Sys2Proof.Machine

/-- A condition as the byte 1 or 0. -/
def flagByte (c : Bool) : Byte := if c then 1#8 else 0#8

/-- Carry out of bit 7 of an 8-bit sum: `(a + b > 255) ? 1 : 0` (R92). -/
def carryFlag (a b : Byte) : Byte := flagByte (decide (a.toNat + b.toNat > 255))

/-- "No borrow": 1 exactly when the minuend is strictly greater (R93, R95). -/
def greaterFlag (minuend subtrahend : Byte) : Byte := flagByte (decide (minuend.toNat > subtrahend.toNat))

/-- The bit a right shift moves out: `b AND 1` (R94). -/
def shiftedOutLow (b : Byte) : Byte := b &&& 1#8

/-- The bit a left shift moves out: `(b >> 7) AND 1` (R96). -/
def shiftedOutHigh (b : Byte) : Byte := (b >>> 7) &&& 1#8

/-- `V[0xF] <- b`, the flag written as the instruction's side effect (10_state.md R16). -/
def State.setFlag (s : State) (b : Byte) : State := s.setV vf b

end Sys2Proof.Machine
end

