-- ==== Sys2Proof/Machine/Alu.lean ====
section
/-! DEFINITION. The ALU and the register moves (42_alu.md). The statements of a rule run in the order written, each
reading the state the earlier ones left (00_scope.md R12; D3; log entry 7). -/

namespace Sys2Proof.Machine

/-- LD Vx, kk (R86). -/
def execLdImm (x : RegIdx) (kk : Byte) (s : State) : Result := .next (s.setV x kk)

/-- ADD Vx, kk (R87): no flag. -/
def execAddImm (x : RegIdx) (kk : Byte) (s : State) : Result := .next (s.setV x (s.getV x + kk))

/-- LD Vx, Vy (R88). -/
def execLdReg (x y : RegIdx) (s : State) : Result := .next (s.setV x (s.getV y))

/-- OR Vx, Vy (R89): VF is not reset. -/
def execOrReg (x y : RegIdx) (s : State) : Result := .next (s.setV x (s.getV x ||| s.getV y))

/-- AND Vx, Vy (R90): VF is not reset. -/
def execAndReg (x y : RegIdx) (s : State) : Result := .next (s.setV x (s.getV x &&& s.getV y))

/-- XOR Vx, Vy (R91): VF is not reset. -/
def execXorReg (x y : RegIdx) (s : State) : Result := .next (s.setV x (s.getV x ^^^ s.getV y))

/-- ADD Vx, Vy (R92): both operands are read first, then VF is written, then V[x]. -/
def execAddReg (x y : RegIdx) (s : State) : Result :=
  let a := s.getV x
  let b := s.getV y
  .next ((s.setFlag (carryFlag a b)).setV x (a + b))

/-- SUB Vx, Vy (R93): VF first, then the difference of the registers as they then stand. -/
def execSub (x y : RegIdx) (s : State) : Result :=
  let t := s.setFlag (greaterFlag (s.getV x) (s.getV y))
  .next (t.setV x (t.getV x - t.getV y))

/-- SHR Vx (R94): VF first, then V[x] as it then stands is shifted. -/
def execShr (x : RegIdx) (s : State) : Result :=
  let t := s.setFlag (shiftedOutLow (s.getV x))
  .next (t.setV x (t.getV x >>> 1))

/-- SUBN Vx, Vy (R95): VF first, then the difference of the registers as they then stand. -/
def execSubn (x y : RegIdx) (s : State) : Result :=
  let t := s.setFlag (greaterFlag (s.getV y) (s.getV x))
  .next (t.setV x (t.getV y - t.getV x))

/-- SHL Vx (R96): VF first, then V[x] as it then stands is shifted. -/
def execShl (x : RegIdx) (s : State) : Result :=
  let t := s.setFlag (shiftedOutHigh (s.getV x))
  .next (t.setV x (t.getV x <<< 1))

/-- RND Vx, kk (R97): a fresh draw, masked. -/
def execRnd (x : RegIdx) (kk : Byte) (s : State) : Result :=
  let (d, t) := s.draw
  .next (t.setV x (d &&& kk))

end Sys2Proof.Machine
end

