-- ==== Sys2Proof/Machine/Operands.lean ====
section
/-! DEFINITION. The operand forms (30_encoding.md R57; 43_index_memory.md R100; 44_display_keys_timers.md R108). -/

namespace Sys2Proof.Machine

/-- `zext_16(nnn)` (R57). -/
def zextAddr (nnn : Addr) : Word := nnn.setWidth 16

/-- `zext_16` of a byte. -/
def zextByte (b : Byte) : Word := b.setWidth 16

/-- The one data addressing mode: the address `I` itself, on unbounded naturals, to which an offset is added (R100). -/
def State.indexAddress (s : State) : Nat := s.i.toNat

/-- The address of the glyph of a whole byte: `0x050 + b * 5` (43 R103; conflict C4). It is at most 0x54B. -/
def glyphAddress (b : Byte) : Word := 0x050#16 + zextByte b * 5#16

/-- The hundreds, tens and ones digits of a byte (43 R104). -/
def decimalDigits (b : Byte) : List Byte :=
  [BitVec.ofNat 8 (b.toNat / 100), BitVec.ofNat 8 (b.toNat / 10 % 10), BitVec.ofNat 8 (b.toNat % 10)]

/-- The sprite's origin column, `V[x] mod WIDTH` (44 R108). -/
def State.originColumn (s : State) (x : RegIdx) : Nat := (s.getV x).toNat % Config.width

/-- The sprite's origin row, `V[y] mod HEIGHT` (44 R108). -/
def State.originRow (s : State) (y : RegIdx) : Nat := (s.getV y).toNat % Config.height

/-- A row number wrapped at HEIGHT (44 R108). -/
def wrapRow (r : Nat) : Fin Config.height := ⟨r % Config.height, Nat.mod_lt r (by decide)⟩

/-- A column number wrapped at WIDTH (44 R108). -/
def wrapColumn (c : Nat) : Fin Config.width := ⟨c % Config.width, Nat.mod_lt c (by decide)⟩

/-- The key symbol a byte names, none above 0xF (44 R110; D9). -/
def keyOfByte (b : Byte) : Option RegIdx := if h : b.toNat < 16 then some ⟨b.toNat, h⟩ else none

end Sys2Proof.Machine
end

