-- ==== Sys2Proof/Machine/Display.lean ====
section
/-! DEFINITION. The framebuffer instructions (44_display_keys_timers.md R107 to R109). -/

namespace Sys2Proof.Machine

/-- The framebuffer under a draw, and whether a pixel that was 1 has been turned off. -/
abbrev Blit := Gfx × Bool

/-- One set sprite bit on pixel (r, c): a collision if the pixel is 1, and the pixel flips (R108). -/
def blitPixel (p : Blit) (r : Fin Config.height) (c : Fin Config.width) : Blit :=
  (p.1.flip r c, p.2 || p.1.pixel r c)

/-- Sprite bit of column `col` of 0..7: bit 7 is the leftmost pixel (R108; D18; log entry 15). -/
def spriteBit (b : Byte) (col : Nat) : Bool := b.getLsbD (7 - col)

/-- One sprite byte at screen row `r`, from column `ox` on, wrapped at WIDTH (R108). -/
def blitRow (b : Byte) (r ox : Nat) (p : Blit) : Blit :=
  (List.range 8).foldl
    (fun q col => if spriteBit b col then blitPixel q (wrapRow r) (wrapColumn (ox + col)) else q) p

/-- The sprite's bytes, one a row, from screen row `r` down, wrapped at HEIGHT (R108). -/
def blitRows : List Byte → Nat → Nat → Blit → Blit
  | [], _, _, p => p
  | b :: bs, r, ox, p => blitRows bs (r + 1) ox (blitRow b r ox p)

/-- CLS (R107). -/
def execCls (s : State) : Result := .next (s.setGfx Gfx.clear)

/-- The draw itself, after the range check: the sprite's `n` bytes are at I; VF becomes the collision flag, redraw is
set (R108). The origin is taken from V[x], V[y] before VF is written (D17; log entry 15). -/
def State.drawSprite (s : State) (x y : RegIdx) (n : Nat) : State :=
  let sprite := s.mem.readBytes s.indexAddress n
  let drawn := blitRows sprite (s.originRow y) (s.originColumn x) (s.gfx, false)
  (s.setFlag (flagByte drawn.2)).setGfx drawn.1

/-- DRW Vx, Vy, n (R108): for n = 0 no byte is read, so there is nothing to check. -/
def execDrw (x y : RegIdx) (n : Fin 16) (s : State) : Result :=
  if n.val = 0 then .next (s.drawSprite x y 0)
  else checkRange (s.indexAddress + n.val - 1) (.next (s.drawSprite x y n.val))

end Sys2Proof.Machine
end

