-- ==== Sys2Proof/Machine/Flow.lean ====
section
/-! DEFINITION. The program-counter sequencer (41_flow.md): each meaning is step 5, with pc two past the instruction. -/

namespace Sys2Proof.Machine

/-- RET (R74): pc from the popped entry, or StackUnderflow with the RET's own address. -/
def execRet (s : State) : Result :=
  match s.pop with
  | some (a, t) => .next (t.setPc a)
  | none => raise (.stackUnderflow s.instrAddress)

/-- SYS nnn (R75): nothing; nnn is ignored. -/
def execSys (_nnn : Addr) (s : State) : Result := noOperation s

/-- JP nnn (R76). -/
def execJp (nnn : Addr) (s : State) : Result := .next (s.setPc (zextAddr nnn))

/-- CALL nnn (R77): pushes pc, the address after the CALL, or StackOverflow with the CALL's own address. -/
def execCall (nnn : Addr) (s : State) : Result :=
  match s.push s.pc with
  | some t => .next (t.setPc (zextAddr nnn))
  | none => raise (.stackOverflow s.instrAddress)

/-- SE Vx, kk (R79). -/
def execSeImm (x : RegIdx) (kk : Byte) (s : State) : Result := .next (s.skipIf (s.getV x == kk))

/-- SNE Vx, kk (R80). -/
def execSneImm (x : RegIdx) (kk : Byte) (s : State) : Result := .next (s.skipIf (s.getV x != kk))

/-- SE Vx, Vy (R81). -/
def execSeReg (x y : RegIdx) (s : State) : Result := .next (s.skipIf (s.getV x == s.getV y))

/-- SNE Vx, Vy (R82). -/
def execSneReg (x y : RegIdx) (s : State) : Result := .next (s.skipIf (s.getV x != s.getV y))

/-- JP V0, nnn (R83): the sum is reduced mod 2^16, not mod 4096. -/
def execJpV0 (nnn : Addr) (s : State) : Result := .next (s.setPc (zextAddr nnn + zextByte (s.getV 0)))

end Sys2Proof.Machine
end

