-- ==== Sys2Proof/Machine/Index.lean ====
section
/-! DEFINITION. The index register and the memory transfers (43_index_memory.md). No access changes I (R100). -/

namespace Sys2Proof.Machine

/-- LD I, nnn (R101). -/
def execLdI (nnn : Addr) (s : State) : Result := .next (s.setI (zextAddr nnn))

/-- ADD I, Vx (R102): mod 2^16, no flag. -/
def execAddI (x : RegIdx) (s : State) : Result := .next (s.setI (s.i + zextByte (s.getV x)))

/-- LD F, Vx (R103): the whole of V[x] selects the glyph. -/
def execLdF (x : RegIdx) (s : State) : Result := .next (s.setI (glyphAddress (s.getV x)))

/-- LD B, Vx (R104): three decimal digits at I, I+1, I+2. -/
def execLdB (x : RegIdx) (s : State) : Result :=
  checkRange (s.indexAddress + 2) (.next (s.storeBytes s.indexAddress (decimalDigits (s.getV x))))

/-- LD [I], Vx (R105): V0 to Vx to memory from I up. -/
def execStRegs (x : RegIdx) (s : State) : Result :=
  checkRange (s.indexAddress + x.val) (.next (s.storeBytes s.indexAddress (s.regsUpTo x)))

/-- LD Vx, [I] (R106): V0 to Vx from memory from I up. -/
def execLdRegs (x : RegIdx) (s : State) : Result :=
  checkRange (s.indexAddress + x.val) (.next (s.loadRegsFrom s.indexAddress x))

end Sys2Proof.Machine
end

