-- ==== Sys2Proof/Machine/KeysTimers.lean ====
section
/-! DEFINITION. The key and timer instructions (44_display_keys_timers.md R110 to R115). -/

namespace Sys2Proof.Machine

/-- What SKP and SKNP share: skip when the key V[x] is pressed as `pressed` says, KeyIndexOutOfRange above 0xF (R110, R111). -/
def skipOnKey (x : RegIdx) (pressed : Bool) (s : State) : Result :=
  match keyOfByte (s.getV x) with
  | some k => .next (s.skipIf (s.keyDown k == pressed))
  | none => raise (.keyIndexOutOfRange (s.getV x))

/-- SKP Vx (R110). -/
def execSkp (x : RegIdx) (s : State) : Result := skipOnKey x true s

/-- SKNP Vx (R111). -/
def execSknp (x : RegIdx) (s : State) : Result := skipOnKey x false s

/-- LD Vx, DT (R112). -/
def execLdVxDt (x : RegIdx) (s : State) : Result := .next (s.setV x s.dt)

/-- LD Vx, K (R113): the lowest pressed key, or back to this instruction. -/
def execLdVxK (x : RegIdx) (s : State) : Result :=
  match s.lowestKey with
  | some k => .next (s.setV x (BitVec.ofNat 8 k.val))
  | none => .next s.rewind

/-- LD DT, Vx (R114). -/
def execLdDtVx (x : RegIdx) (s : State) : Result := .next (s.setDt (s.getV x))

/-- LD ST, Vx (R115). -/
def execLdStVx (x : RegIdx) (s : State) : Result := .next (s.setSt (s.getV x))

end Sys2Proof.Machine
end

