-- ==== Sys2Proof/Machine/Step.lean ====
section
/-! DEFINITION. One step: the fetch-decode-execute cycle (40_cycle.md R64 to R73). -/

namespace Sys2Proof.Machine

/-- Steps 4 and 5 of R66 for a fetched word: its instruction's meaning, or the no-op of an UNDEFINED word (R70). -/
def executeWord (w : Word) (s : State) : Host.Outcome State Fault Refusal :=
  match decode w with
  | .ok ins => exec ins s
  | .error _ => noOperation s

/-- The step of R66. In the Halted state it returns the same fault again (R65). The state a faulting step leaves is
`State.halt` of the state before it (R71; log entry 1). -/
def step (s : State) : Host.Outcome State Fault Refusal :=
  match s.run with
  | .halted cause => raise cause
  | .running =>
    if s.fetchable then executeWord s.fetchWord s.fetched
    else raise (.fetchOutOfRange s.pc)

/-- The state `s` with an instruction word, its bits numbered as opcode_table.json numbers them, stored at pc: what
`load` would have placed there (log entry 13). Where pc addresses no two bytes there is no place for it. -/
def State.withFetchWord (s : State) (nbits w : Nat) : State :=
  if s.fetchable then
    s.storeBytes s.pc.toNat [highByte (tableWord nbits w), lowByte (tableWord nbits w)]
  else s

end Sys2Proof.Machine
end

