-- ==== Sys2Proof/Machine/HostOps.lean ====
section
/-! DEFINITION. The block's five operations as transactions (00_scope.md R6): what each does to the state and what it
returns to the host. They are atomic and happen one at a time, in any order (20_memory.md R48; 60_exceptions.md R123). -/

namespace Sys2Proof.Machine

/-- A host operation (R6). The image of `load` is none when the source cannot be read (70 R133). -/
inductive HostOp where
  | reset
  | load (image : Option (List Byte))
  | step
  | tick
  | setKey (symbol : Nat) (pressed : Bool)
deriving DecidableEq, Repr

/-- What an operation returns. -/
inductive Response where
  /-- `reset`, `load` and `set_key` that did their work -/
  | done
  /-- `Ok(redraw)` of a step (40 R64) -/
  | stepped (redraw : Bool)
  /-- the audio edge of a tick (60 R122, R127) -/
  | ticked (audioEdge : Bool)
  /-- `Fault(cause)` of a step, or LoadError of a load -/
  | failed (cause : Fault)
  /-- the model has no meaning for the operation (60 R125; 70 R134) -/
  | refused (why : Refusal)
deriving DecidableEq, Repr

/-- The first address of a program image, PROG_BASE (R7). -/
def programBase : Nat := 0x200

/-- MAX_IMAGE: 4096 - 0x200 bytes (R7; 70 R133). -/
def maxImage : Nat := 3584

/-- `reset()` (70 R131). The draw counter alone is kept, so that a new run draws fresh bytes (log entry 14). -/
def State.resetBlock (s : State) : State := { State.reset with draws := s.draws }

/-- `step()` as a transaction: a faulting step commits nothing but Halted(cause) (40 R71; 60 R117). -/
def State.stepBlock (s : State) : State × Response :=
  match Sys2Proof.Machine.step s with
  | .next t => (t, .stepped t.redraw)
  | .fault cause => (s.halt cause, .failed cause)
  | .refused why => (s, .refused why)

/-- A timer decayed once: it never goes below 0 (60 R122). -/
def decay (b : Byte) : Byte := if b.toNat > 0 then b - 1 else b

/-- `tick()` (60 R122): the edge is signalled when ST was non-zero; nothing happens in the Halted state. -/
def State.tickBlock (s : State) : State × Bool :=
  match s.run with
  | .halted _ => (s, false)
  | .running => ((s.setDt (decay s.dt)).setSt (decay s.st), decide (s.st.toNat > 0))

/-- A load is accepted once, after reset and before the first step (70 R134; D27; log entry 12). -/
def State.mayLoad (s : State) : Bool := s.loadOpen && decide (s.run = .running)

/-- `load(image)` (70 R133): the bytes are copied to 0x200 up, or LoadError with the state unmodified. -/
def State.loadBlock (s : State) (image : Option (List Byte)) : State × Response :=
  if s.mayLoad then
    match image with
    | none => (s, .failed .loadError)
    | some bytes =>
      if bytes.length > maxImage then (s, .failed .loadError)
      else ({ s.storeBytes programBase bytes with loadOpen := false }, .done)
  else (s, .refused .loadNotOpen)

/-- `set_key(symbol, pressed)` (60 R125). -/
def State.setKeyBlock (s : State) (symbol : Nat) (pressed : Bool) : State × Response :=
  if h : symbol < 16 then ({ s with key := s.key.set symbol pressed h }, .done)
  else (s, .refused (.keySymbolOutOfRange symbol))

/-- One host operation on the block. -/
def transact (op : HostOp) (s : State) : State × Response :=
  match op with
  | .reset => (s.resetBlock, .done)
  | .load image => s.loadBlock image
  | .step => s.stepBlock
  | .tick => (s.tickBlock.1, .ticked s.tickBlock.2)
  | .setKey symbol pressed => s.setKeyBlock symbol pressed

/-- A schedule of host operations, one after the other, and what each returned (60 R123: any interleaving). -/
def transactAll : List HostOp → State → State × List Response
  | [], s => (s, [])
  | op :: ops, s =>
    let (t, r) := transact op s
    let (u, rs) := transactAll ops t
    (u, r :: rs)

/-- One turn of the document's driver loop with IPT = `ipt`: that many steps, then one tick (60 R123; 70 R136). -/
def frameOps (ipt : Nat) : List HostOp := List.replicate ipt .step ++ [.tick]

/-- The display output: the 64 x 32 pixels, row-major, and the redraw flag (10 R27; 60 R126). -/
def State.display (s : State) : List Bool × Bool := ((s.gfx.toList.map Vector.toList).flatten, s.redraw)

/-- The code of a cause (60 R116). -/
def Fault.code : Fault → Nat
  | .stackOverflow _ => 1
  | .stackUnderflow _ => 2
  | .fetchOutOfRange _ => 3
  | .memoryOutOfRange _ => 4
  | .keyIndexOutOfRange _ => 5
  | .loadError => 6

end Sys2Proof.Machine
end

