-- ==== Sys2Proof/Safety.lean ====
section
/-! DEFINITION. The terms the statements use: the parts of the state and what it is for one to be unchanged, the parts an
instruction may write, the faults it may raise, a sprite's pixels, and the invariant of every run. They are written from
the spec's rules, not from the meanings. -/

namespace Sys2Proof.Machine

/-- The parts of the state, down to one register, stack entry, pixel, key or byte of memory. -/
inductive Part where
  | v (r : RegIdx)
  | i
  | pc
  | stack (j : Fin 16)
  | sp
  | dt
  | st
  | pixel (r : Fin Config.height) (c : Fin Config.width)
  | key (k : RegIdx)
  | opcode
  | redraw
  | run
  | loadOpen
  | draws
  | byte (a : Nat)
deriving DecidableEq, Repr

/-- A part has the same value in both states; a byte of memory is compared through the read of one byte. -/
def Unchanged (s t : State) : Part → Prop
  | .v r => t.getV r = s.getV r
  | .i => t.i = s.i
  | .pc => t.pc = s.pc
  | .stack j => t.stack[j.val] = s.stack[j.val]
  | .sp => t.sp = s.sp
  | .dt => t.dt = s.dt
  | .st => t.st = s.st
  | .pixel r c => t.gfx.pixel r c = s.gfx.pixel r c
  | .key k => t.keyDown k = s.keyDown k
  | .opcode => t.opcode = s.opcode
  | .redraw => t.redraw = s.redraw
  | .run => t.run = s.run
  | .loadOpen => t.loadOpen = s.loadOpen
  | .draws => t.draws = s.draws
  | .byte a => t.readByte a = s.readByte a

/-- Every part outside `allowed` is unchanged: the frame of an instruction. -/
def ChangesOnly (s t : State) (allowed : Part → Prop) : Prop := ∀ p, ¬ allowed p → Unchanged s t p

/-- The largest pc an instruction can make, 0xFFF + 0xFF (10_state.md R22; 41_flow.md R83). -/
def maxPc : Nat := 0x10FE

/-- The invariant of every run: memory in canonical form (the model's own, log entry 4), pc at most 0x10FE, every stack entry an address that a CALL
could push, and never Halted(LoadError). -/
def State.Inv (s : State) : Prop :=
  s.mem.wf ∧ s.pc.toNat ≤ maxPc ∧ (∀ j : Fin 16, s.stack[j.val].toNat ≤ lastAddress + 1) ∧ s.run ≠ .halted .loadError

/-! ## What an instruction may write and raise -/

/-- Address `a` is one of the `n` bytes from I up (43_index_memory.md R100). -/
def State.atIndex (s : State) (n a : Nat) : Prop := s.i.toNat ≤ a ∧ a < s.i.toNat + n

/-- The parts that an instruction may write, by the spec's lists of writers: general registers R17, VF R16, I R19, pc R21,
the stack R23, the timers R25 and R26, the framebuffer R27, redraw R30, memory 20_memory.md R42. The draw counter is the
model's own. -/
def mayWrite (s : State) : Instr → Part → Prop
  | .cls, p => p = .redraw ∨ ∃ r c, p = .pixel r c
  | .ret, p => p = .sp ∨ p = .pc
  | .sys _, _ => False
  | .jp _, p => p = .pc
  | .call _, p => p = .pc ∨ p = .sp ∨ ∃ j : Fin 16, j.val = s.sp.val ∧ p = .stack j
  | .seImm _ _, p | .sneImm _ _, p | .seReg _ _, p | .sneReg _ _, p | .skp _, p | .sknp _, p | .jpV0 _, p => p = .pc
  | .ldImm x _, p | .addImm x _, p | .ldReg x _, p | .orReg x _, p | .andReg x _, p | .xorReg x _, p
  | .ldVxDt x, p => p = .v x
  | .addReg x _, p | .sub x _, p | .shr x, p | .subn x _, p | .shl x, p => p = .v x ∨ p = .v vf
  | .ldI _, p | .addI _, p | .ldF _, p => p = .i
  | .rnd x _, p => p = .v x ∨ p = .draws
  | .drw _ _ _, p => p = .v vf ∨ p = .redraw ∨ ∃ r c, p = .pixel r c
  | .ldVxK x, p => p = .v x ∨ p = .pc
  | .ldDtVx _, p => p = .dt
  | .ldStVx _, p => p = .st
  | .ldB _, p => ∃ a, s.atIndex 3 a ∧ p = .byte a
  | .stRegs x, p => ∃ a, s.atIndex (x.val + 1) a ∧ p = .byte a
  | .ldRegs x, p => ∃ r, r ≤ x ∧ p = .v r

/-- The fault that an instruction raises in step 5, by the table of 60_exceptions.md R116: its condition and its record. -/
def faultCause (s : State) : Instr → Option Fault
  | .call _ => if s.sp.val = 16 then some (.stackOverflow (s.pc - 2)) else none
  | .ret => if s.sp.val = 0 then some (.stackUnderflow (s.pc - 2)) else none
  | .ldB _ => if s.i.toNat + 2 > 0xFFF then some (.memoryOutOfRange (s.i.toNat + 2)) else none
  | .stRegs x | .ldRegs x => if s.i.toNat + x.val > 0xFFF then some (.memoryOutOfRange (s.i.toNat + x.val)) else none
  | .drw _ _ n =>
    if n.val > 0 ∧ s.i.toNat + n.val - 1 > 0xFFF then some (.memoryOutOfRange (s.i.toNat + n.val - 1)) else none
  | .skp x | .sknp x => if (s.getV x).toNat > 0xF then some (.keyIndexOutOfRange (s.getV x)) else none
  | .cls | .sys _ | .jp _ | .seImm _ _ | .sneImm _ _ | .seReg _ _ | .ldImm _ _ | .addImm _ _ | .ldReg _ _ | .orReg _ _
  | .andReg _ _ | .xorReg _ _ | .addReg _ _ | .sub _ _ | .shr _ | .subn _ _ | .shl _ | .sneReg _ _ | .ldI _ | .jpV0 _
  | .rnd _ _ | .ldVxDt _ | .ldVxK _ | .ldDtVx _ | .ldStVx _ | .addI _ | .ldF _ => none

/-- An outcome with its next state changed by `f`; a fault or a refusal as it is. -/
def mapNext (f : State → State) : Result → Result
  | .next t => .next (f t)
  | .fault c => .fault c
  | .refused w => .refused w

/-! ## Sprites -/

/-- Pixel (r, c) is under a set bit of the sprite of `n` rows at I with its origin at (V[x], V[y]): its row offset from the
origin, mod HEIGHT, is below `n`, its column offset, mod WIDTH, is below 8, and that bit of that byte is 1, bit 7 being
the leftmost (44 R108). -/
def State.spriteCovers (s : State) (x y : RegIdx) (n : Nat) (r : Fin Config.height) (c : Fin Config.width) : Bool :=
  let dr := (r.val + 32 - (s.getV y).toNat % 32) % 32
  let dc := (c.val + 64 - (s.getV x).toNat % 64) % 64
  decide (dr < n) && decide (dc < 8) && (s.readByte (s.i.toNat + dr)).getLsbD (7 - dc)

/-! ## Words as the spec writes them, digit by digit (30_encoding.md R56) -/

/-- The word of class `c` with fields x, y, n. -/
def wordXYN (c x y n : Nat) : Word := BitVec.ofNat 16 (c * 4096 + x * 256 + y * 16 + n)

/-- The word of class `c` with fields x, kk. -/
def wordXKK (c x kk : Nat) : Word := BitVec.ofNat 16 (c * 4096 + x * 256 + kk)

/-- The word of class `c` with field nnn. -/
def wordNNN (c nnn : Nat) : Word := BitVec.ofNat 16 (c * 4096 + nnn)

end Sys2Proof.Machine
end

