-- ==== Sys2Proof/Certificates/Slice0/Obligations.lean ====
section
/-! DEFINITION. The statements for the provers, from the numbered rules of spec/. An instruction's statement has a decode
clause (every word of its row, its fields in every value) and a clause on `exec`: the state in which step 5 runs has pc
two past the instruction already (40_cycle.md R66). -/

open Sys2Proof Sys2Proof.Machine

/-! ## Encoding -/

/-- Decoding the two bytes of an encoded well-formed instruction gives it back, whatever bytes follow (30 R54, R58, R60;
20 R43). -/
def Obligations.DecodeOfEncodeIsTheInstruction : Prop :=
  ∀ (ins : Instr) (rest : List Byte), ins.wellFormed = true →
    decodeBytes (highByte (encode ins) :: lowByte (encode ins) :: rest) = .ok (ins, rest)

/-- The other direction: a word that decodes to an instruction is the encoded word of it, but for the bits the instruction
ignores, and the instruction is well-formed (30 R56, R60). -/
def Obligations.DecodedWordIsTheEncodedOne : Prop :=
  ∀ (w : Word) (ins : Instr), decode w = .ok ins →
    ins.wellFormed = true ∧ w &&& ins.careMask = encode ins &&& ins.careMask

/-- The UNDEFINED words are those of R61 and no others. -/
def Obligations.UndefinedWordsAreExactlyThoseListed : Prop :=
  ∀ (c x y n : Fin 16), (∃ e, decode (wordXYN c.val x.val y.val n.val) = .error e) ↔
    (c.val = 0x8 ∧ 8 ≤ n.val ∧ n.val ≠ 0xE) ∨
    (c.val = 0xE ∧ ¬ (y.val = 0x9 ∧ n.val = 0xE) ∧ ¬ (y.val = 0xA ∧ n.val = 0x1)) ∨
    (c.val = 0xF ∧ ((y.val = 0 ∧ n.val ≠ 0x7 ∧ n.val ≠ 0xA) ∨ (y.val = 1 ∧ n.val ≠ 0x5 ∧ n.val ≠ 0x8 ∧ n.val ≠ 0xE) ∨
      y.val = 4 ∨ 7 ≤ y.val))

/-- A decoded word has the bits of its row of the opcode map, and of no other row but that of SYS, which CLS and RET are
excluded from (30 R58, R60: the cases are disjoint). -/
def Obligations.RowsOfTheOpcodeMapDoNotOverlap : Prop :=
  ∀ (w : Word) (ins other : Instr), decode w = .ok ins →
    w &&& ins.row.mask = ins.row.bits ∧
    (w &&& other.row.mask = other.row.bits → other.row = ins.row ∨ other.row = (Instr.sys 0).row)

/-- Words written out from the examples of 41, 42, 43 and 44 decode to what they stand for. -/
def Obligations.ExampleWordsDecode : Prop :=
  decode 0x00EE#16 = .ok .ret ∧ decode 0x0123#16 = .ok (.sys 0x123#12) ∧ decode 0x2300#16 = .ok (.call 0x300#12) ∧
  decode 0x3310#16 = .ok (.seImm 3 0x10#8) ∧ decode 0x9120#16 = .ok (.sneReg 1 2) ∧
  decode 0x8124#16 = .ok (.addReg 1 2) ∧ decode 0x810E#16 = .ok (.shl 1) ∧ decode 0xC30F#16 = .ok (.rnd 3 0x0F#8) ∧
  decode 0xA2F0#16 = .ok (.ldI 0x2F0#12) ∧ decode 0xF533#16 = .ok (.ldB 5) ∧ decode 0xF265#16 = .ok (.ldRegs 2) ∧
  decode 0xD125#16 = .ok (.drw 1 2 5) ∧ decode 0xE1A1#16 = .ok (.sknp 1) ∧ decode 0xF50A#16 = .ok (.ldVxK 5)

/-! ## The instruction cycle -/

/-- When the word at pc decodes to an instruction, the step is that instruction's meaning in the state `s.fetched`: opcode
holds the word, pc is two further, redraw is false, no load is open any more, and nothing else has changed (40 R66). -/
def Obligations.StepRunsTheDecodedInstruction : Prop :=
  ∀ (s : State) (ins : Instr), s.run = .running → s.pc.toNat + 1 ≤ 0xFFF → decode s.fetchWord = .ok ins →
    Sys2Proof.Machine.step s = exec ins s.fetched ∧
    s.fetched.opcode = s.fetchWord ∧ s.fetched.pc = s.pc + 2 ∧ s.fetched.redraw = false ∧ s.fetched.loadOpen = false ∧
    ChangesOnly s s.fetched (· ∈ [Part.opcode, .pc, .redraw, .loadOpen])

/-- An UNDEFINED word and SYS do nothing but advance pc by 2, set opcode to the word and clear redraw (40 R70, 30 R62).
That no load is open afterwards is the model's own field (log entry 12). -/
def Obligations.UndefinedWordsAndSysAreNoOps : Prop :=
  ∀ (s : State), s.run = .running → s.pc.toNat + 1 ≤ 0xFFF →
    ((∃ e, decode s.fetchWord = .error e) ∨ (∃ nnn, decode s.fetchWord = .ok (.sys nnn))) →
    ∃ t, Sys2Proof.Machine.step s = .next t ∧ t.redraw = false ∧ t.opcode = s.fetchWord ∧ t.pc = s.pc + 2 ∧
      ChangesOnly s t (· ∈ [Part.opcode, .pc, .redraw, .loadOpen])

/-- The fetch reads the bytes at pc and pc + 1 as they stand, big-endian, and stores the word into opcode; with
pc >= 0xFFF it raises FetchOutOfRange with pc, and the step has no other effect (40 R68). -/
def Obligations.FetchReadsTwoBytesOrFaults : Prop :=
  (∀ (s t : State), s.run = .running → s.pc.toNat < 0xFFF → Sys2Proof.Machine.step s = .next t →
    t.opcode.toNat = (s.readByte s.pc.toNat).toNat * 256 + (s.readByte (s.pc.toNat + 1)).toNat) ∧
  (∀ (s : State), s.run = .running → 0xFFF ≤ s.pc.toNat →
    Sys2Proof.Machine.step s = .fault (.fetchOutOfRange s.pc) ∧
    transact .step s = ({ s with run := .halted (.fetchOutOfRange s.pc) }, .failed (.fetchOutOfRange s.pc)))

/-- In the Halted state a step does nothing and returns the same fault again (40 R65). -/
def Obligations.HaltedStepReturnsTheSameFault : Prop :=
  ∀ (s : State) (cause : Fault), s.run = .halted cause →
    Sys2Proof.Machine.step s = .fault cause ∧ transact .step s = (s, .failed cause)

/-- A faulting step leaves the state before it, but for the run state Halted(cause); after it every step returns the same
fault and a tick does nothing, until a reset (40 R71; 60 R118). -/
def Obligations.FaultingStepCommitsNothing : Prop :=
  ∀ (s : State) (cause : Fault), s.run = .running → Sys2Proof.Machine.step s = .fault cause →
    transact .step s = ({ s with run := .halted cause }, .failed cause) ∧
    transact .step { s with run := .halted cause } = ({ s with run := .halted cause }, .failed cause) ∧
    transact .tick { s with run := .halted cause } = ({ s with run := .halted cause }, .ticked false) ∧
    (transact .reset { s with run := .halted cause }).1.run = .running

/-- The causes of the table of 60 R116, their conditions, their records and their codes: a running step faults exactly
when the fetch is out of range or the decoded instruction's condition in the table holds, and a load that is open is a
LoadError exactly when the image is unreadable or longer than 3584 bytes. -/
def Obligations.FaultsAreExactlyThoseOfTheTable : Prop :=
  (∀ (s : State) (cause : Fault), s.run = .running →
    (Sys2Proof.Machine.step s = .fault cause ↔
      (0xFFF ≤ s.pc.toNat ∧ cause = .fetchOutOfRange s.pc) ∨
      (s.pc.toNat < 0xFFF ∧ ∃ ins, decode s.fetchWord = .ok ins ∧ faultCause s.fetched ins = some cause))) ∧
  (∀ (s : State) (image : Option (List Byte)), s.mayLoad = true →
    (transact (.load image) s = (s, .failed .loadError) ↔ image = none ∨ ∃ bytes, image = some bytes ∧ 3584 < bytes.length)) ∧
  (∀ a n b, Fault.code (.stackOverflow a) = 1 ∧ Fault.code (.stackUnderflow a) = 2 ∧ Fault.code (.fetchOutOfRange a) = 3 ∧
    Fault.code (.memoryOutOfRange n) = 4 ∧ Fault.code (.keyIndexOutOfRange b) = 5 ∧ Fault.code .loadError = 6)

/-- Every instruction answers a next state unless its condition in the table of R116 holds, and then it answers that
fault: none is refused, in any state (60 R116, R119, R121). -/
def Obligations.EveryInstructionCompletesUnlessItsTabledFault : Prop :=
  ∀ (ins : Instr) (s : State),
    (faultCause s ins = none → ∃ t, exec ins s = .next t) ∧
    (∀ cause, faultCause s ins = some cause → exec ins s = .fault cause)

/-! ## Whole-machine rules -/

/-- No instruction changes a part of the state but those the spec names for it (10 R16, R17, R19, R21, R23 to R30; 20 R42). -/
def Obligations.InstructionsChangeOnlyTheirParts : Prop :=
  ∀ (ins : Instr) (s t : State), exec ins s = .next t → ChangesOnly s t (mayWrite s ins)

/-- The framebuffer is read row-major by the display, and no step changes it but one that runs CLS or DRW, nor does a tick,
a key event or a load (10 R27). -/
def Obligations.FramebufferChangesByClearAndDrawOnly : Prop :=
  (∀ (s : State) (r : Fin Config.height) (c : Fin Config.width),
    s.display.1[r.val * 64 + c.val]? = some (s.gfx.pixel r c) ∧ s.display.1.length = 64 * 32) ∧
  (∀ (s t : State), Sys2Proof.Machine.step s = .next t → decode s.fetchWord ≠ .ok .cls →
    (∀ x y n, decode s.fetchWord ≠ .ok (.drw x y n)) → t.gfx = s.gfx) ∧
  (∀ (s : State) (image : Option (List Byte)) (k : Nat) (pressed : Bool),
    (transact .tick s).1.gfx = s.gfx ∧ (transact (.setKey k pressed) s).1.gfx = s.gfx ∧
    (transact (.load image) s).1.gfx = s.gfx)

/-- No step writes the key matrix, nor does a tick or a load; `set_key` does (10 R28). -/
def Obligations.KeysChangeBySetKeyOnly : Prop :=
  (∀ (s t : State), Sys2Proof.Machine.step s = .next t → t.key = s.key) ∧
  (∀ (s : State) (image : Option (List Byte)),
    (transact .tick s).1.key = s.key ∧ (transact (.load image) s).1.key = s.key) ∧
  (∀ (s : State) (k : RegIdx) (pressed : Bool), (transact (.setKey k.val pressed) s).1.keyDown k = pressed)

/-- Among the steps only LD DT, Vx changes DT and only LD ST, Vx changes ST, each to V[x]; every other step keeps both, so
they count down at ticks alone (10 R25, R26; 70 R139). -/
def Obligations.StepsChangeTimersByTheirLoadsOnly : Prop :=
  ∀ (s t : State), Sys2Proof.Machine.step s = .next t →
    ((∀ x, decode s.fetchWord ≠ .ok (.ldDtVx x)) → t.dt = s.dt) ∧
    (∀ x, decode s.fetchWord = .ok (.ldDtVx x) → t.dt = s.getV x) ∧
    ((∀ x, decode s.fetchWord ≠ .ok (.ldStVx x)) → t.st = s.st) ∧
    (∀ x, decode s.fetchWord = .ok (.ldStVx x) → t.st = s.getV x)

/-- After a step redraw is true exactly when the step ran CLS or DRW, and the step returns it (10 R30; 40 R67). -/
def Obligations.RedrawIsSetByClearAndDrawOnly : Prop :=
  ∀ (s t : State), Sys2Proof.Machine.step s = .next t →
    (t.redraw = true ↔ decode s.fetchWord = .ok .cls ∨ ∃ x y n, decode s.fetchWord = .ok (.drw x y n)) ∧
    transact .step s = (t, .stepped t.redraw)

/-- The opcode register holds the fetched word after a step, and no instruction reads it: with another opcode, each does the
same (10 R29). -/
def Obligations.OpcodeRegisterIsNeverRead : Prop :=
  (∀ (s t : State), Sys2Proof.Machine.step s = .next t → t.opcode = s.fetchWord) ∧
  (∀ (ins : Instr) (s : State) (w : Word),
    exec ins { s with opcode := w } = mapNext (fun t => { t with opcode := w }) (exec ins s))

/-- No instruction reads ST: with another value of ST every instruction but LD ST, Vx does the same and keeps that value,
and LD ST, Vx ends in the same state (10 R26; 60 R124). -/
def Obligations.SoundTimerIsNeverRead : Prop :=
  ∀ (ins : Instr) (s : State) (b : Byte),
    ((∀ x, ins ≠ .ldStVx x) →
      exec ins { s with st := b } = mapNext (fun t => { t with st := b }) (exec ins s)) ∧
    (∀ x, ins = .ldStVx x → exec ins { s with st := b } = exec ins s)

/-- The stack entries at and above sp, which a pop leaves behind, are never read: a state that differs from `s` in such
entries alone runs every instruction to a state that again differs in such entries alone (10 R24; D26). -/
def Obligations.EntriesAboveTheStackTopAreNeverRead : Prop :=
  ∀ (ins : Instr) (s t : State) (entries : Vector Word 16),
    (∀ j : Fin 16, j.val < s.sp.val → entries[j.val] = s.stack[j.val]) → exec ins s = .next t →
    ∃ after : Vector Word 16, exec ins { s with stack := entries } = .next { t with stack := after } ∧
      ∀ j : Fin 16, j.val < t.sp.val → after[j.val] = t.stack[j.val]

/-- A word whose bytes ST_REGS has just stored is what the next fetch reads there, with no fence (20 R43, R51). -/
def Obligations.StoredBytesAreFetched : Prop :=
  ∀ (x k k' : RegIdx) (s t : State), exec (.stRegs x) s = .next t → k'.val = k.val + 1 → k' ≤ x →
    t.pc.toNat = s.i.toNat + k.val →
    t.fetchWord.toNat = (s.getV k).toNat * 256 + (s.getV k').toNat

/-! ## The invariant -/

/-- The state after reset meets the invariant. Its bounds on pc, the stack and the run state hold of the values of 10 R36;
that memory is in canonical form is the model's own choice of how it writes memory down (log entry 4), no rule of the
spec. -/
def Obligations.ResetMeetsTheInvariant : Prop := State.reset.Inv

/-- Every step keeps it: pc stays at most 0x10FE, every stack entry an address a CALL can push, and memory inside the 4096
bytes (10 R22, R23, R32; 41 R83). That memory stays in canonical form is the model's own (log entry 4), no rule of the
spec. -/
def Obligations.EveryStepKeepsTheInvariant : Prop :=
  ∀ (s t : State), s.Inv → Sys2Proof.Machine.step s = .next t → t.Inv

/-- Every schedule of host operations keeps it: resets, loads, steps that complete or fault, ticks and key events, in any
order (60 R123). That memory stays in canonical form is the model's own (log entry 4), no rule of the spec; R32 gives only
its 4096 bytes. -/
def Obligations.EveryScheduleKeepsTheInvariant : Prop :=
  ∀ (ops : List HostOp) (s : State), s.Inv → (transactAll ops s).1.Inv

/-- In canonical form, memories that read the same at every address of the 4096 bytes are the same data (20 R39). -/
def Obligations.EqualReadsMeanEqualMemories : Prop :=
  ∀ (m n : Memory), m.wf → n.wf → (∀ a, a ≤ 0xFFF → m.read a = n.read a) → m = n

/-! ## Reset, load, keys, timers -/

/-- The reset values of 10 R36, part by part, with FONT as the parameter `fontBytes`; the operation `reset` leaves them all
(the draw counter apart, which is the model's own: log entry 14). -/
def Obligations.ResetLeavesTheTabledValues : Prop :=
  (∀ r, State.reset.getV r = 0) ∧ State.reset.i = 0 ∧ State.reset.pc = 0x200#16 ∧
  (∀ j : Fin 16, State.reset.stack[j.val] = 0) ∧ State.reset.sp = 0 ∧ State.reset.dt = 0 ∧ State.reset.st = 0 ∧
  (∀ r c, State.reset.gfx.pixel r c = false) ∧ (∀ k, State.reset.keyDown k = false) ∧ State.reset.opcode = 0 ∧
  State.reset.redraw = false ∧ State.reset.run = .running ∧
  (∀ a, a < 0x050 → State.reset.readByte a = 0) ∧
  (∀ k : Fin 80, some (State.reset.readByte (0x050 + k.val)) = fontBytes[k.val]?) ∧
  (∀ a, 0x0A0 ≤ a → a ≤ 0xFFF → State.reset.readByte a = 0) ∧
  (∀ s, ChangesOnly State.reset (transact .reset s).1 (· ∈ [Part.draws]))

/-- The tick: each timer that is not 0 goes down by 1, the edge is signalled when ST was not 0, a Halted block does nothing;
so from ST = k exactly the first k ticks signal the edge (60 R122). -/
def Obligations.TickDecaysBothTimers : Prop :=
  (∀ (s : State) (cause : Fault), s.run = .halted cause → transact .tick s = (s, .ticked false)) ∧
  (∀ (s : State), s.run = .running →
    (transact .tick s).2 = .ticked (decide (0 < s.st.toNat)) ∧
    (transact .tick s).1.dt.toNat = s.dt.toNat - 1 ∧ (transact .tick s).1.st.toNat = s.st.toNat - 1 ∧
    ChangesOnly s (transact .tick s).1 (· ∈ [Part.dt, .st])) ∧
  (∀ (s : State) (n : Nat), s.run = .running →
    (transactAll (List.replicate n .tick) s).2 = (List.range n).map (fun j => .ticked (decide (j < s.st.toNat))))

/-- `set_key` writes the one entry it names, and is refused outside 0..15 (60 R125). -/
def Obligations.SetKeyWritesOneKey : Prop :=
  (∀ (s : State) (k : RegIdx) (pressed : Bool), ∃ t, transact (.setKey k.val pressed) s = (t, .done) ∧
    t.keyDown k = pressed ∧ ChangesOnly s t (· ∈ [Part.key k])) ∧
  (∀ (s : State) (k : Nat) (pressed : Bool), 16 ≤ k →
    transact (.setKey k pressed) s = (s, .refused (.keySymbolOutOfRange k)))

/-- `load` copies an image of at most 3584 bytes to 0x200 up, an empty one and one of odd length too, and leaves the rest
of the state; an image that cannot be read or is longer is a LoadError with the state unmodified (70 R133). That the load
then counts as done is the model's own field (log entry 12). -/
def Obligations.LoadCopiesTheImageOrLeavesTheState : Prop :=
  (∀ (s : State) (bytes : List Byte), s.mayLoad = true → bytes.length ≤ 3584 →
    ∃ t, transact (.load (some bytes)) s = (t, .done) ∧
      (∀ k, k < bytes.length → some (t.readByte (0x200 + k)) = bytes[k]?) ∧
      ChangesOnly s t (fun p => p = .loadOpen ∨ ∃ a, 0x200 ≤ a ∧ a < 0x200 + bytes.length ∧ p = .byte a)) ∧
  (∀ (s : State) (bytes : List Byte), s.mayLoad = true → 3584 < bytes.length →
    transact (.load (some bytes)) s = (s, .failed .loadError)) ∧
  (∀ (s : State), s.mayLoad = true → transact (.load none) s = (s, .failed .loadError))

/-- A load is accepted right after reset, and refused after a load that was done or after a step, whatever else the host
does, until the next reset (70 R134). -/
def Obligations.LoadIsAcceptedOnce : Prop :=
  (∀ (s : State), (transact .reset s).1.mayLoad = true) ∧
  (∀ (s : State) (first : HostOp) (ops : List HostOp) (image : Option (List Byte)),
    first = .step ∨ (∃ bytes, first = .load (some bytes) ∧ (transact first s).2 = .done) → (∀ op ∈ ops, op ≠ .reset) →
    transact (.load image) (transactAll (first :: ops) s).1 =
      ((transactAll (first :: ops) s).1, .refused .loadNotOpen))

/-- A jump to itself: however many steps follow, the state is the one after the first of them, and that one differs from
the state before in redraw (false), opcode (the jump's word) and the model's load field alone (70 R137). -/
def Obligations.SelfJumpRepeatsForever : Prop :=
  ∀ (s : State) (nnn : Addr), s.run = .running → s.pc.toNat = nnn.toNat → s.pc.toNat < 0xFFF →
    s.fetchWord = wordNNN 0x1 nnn.toNat →
    ∃ t, (∀ k, Host.Core.run Sys2Proof.core (k + 1) s = .next t) ∧ t.redraw = false ∧ t.opcode = s.fetchWord ∧
      ChangesOnly s t (· ∈ [Part.opcode, .redraw, .loadOpen])

/-! ## The program-counter sequencer (41_flow.md) -/

/-- RET (R74). -/
def Obligations.ReturnPopsItsAddress : Prop :=
  (∀ x : Fin 16, decode (wordXKK 0x0 x.val 0xEE) = .ok .ret) ∧
  (∀ (s : State) (j : Fin 16), s.sp.val = j.val + 1 → ∃ t, exec .ret s = .next t ∧
    t.sp.val = j.val ∧ t.pc = s.stack[j.val] ∧ ChangesOnly s t (· ∈ [Part.sp, .pc])) ∧
  (∀ (s : State), s.sp.val = 0 → exec .ret s = .fault (.stackUnderflow (s.pc - 2)))

/-- SYS nnn (R75): every other class-0 word, and it does nothing. -/
def Obligations.SysDoesNothing : Prop :=
  (∀ nnn : Addr, nnn.toNat % 256 ≠ 0xE0 → nnn.toNat % 256 ≠ 0xEE → decode (wordNNN 0x0 nnn.toNat) = .ok (.sys nnn)) ∧
  (∀ (nnn : Addr) (s : State), exec (.sys nnn) s = .next s)

/-- JP nnn (R76). -/
def Obligations.JumpGoesToItsTarget : Prop :=
  (∀ nnn : Addr, decode (wordNNN 0x1 nnn.toNat) = .ok (.jp nnn)) ∧
  (∀ (nnn : Addr) (s : State), ∃ t, exec (.jp nnn) s = .next t ∧ t.pc.toNat = nnn.toNat ∧
    ChangesOnly s t (· ∈ [Part.pc]))

/-- CALL nnn (R77). -/
def Obligations.CallPushesTheReturnAddress : Prop :=
  (∀ nnn : Addr, decode (wordNNN 0x2 nnn.toNat) = .ok (.call nnn)) ∧
  (∀ (nnn : Addr) (s : State) (j : Fin 16), s.sp.val = j.val → ∃ t, exec (.call nnn) s = .next t ∧
    t.stack[j.val] = s.pc ∧ t.sp.val = j.val + 1 ∧ t.pc.toNat = nnn.toNat ∧
    ChangesOnly s t (· ∈ [Part.stack j, .sp, .pc])) ∧
  (∀ (nnn : Addr) (s : State), s.sp.val = 16 → exec (.call nnn) s = .fault (.stackOverflow (s.pc - 2)))

/-- A RET after a CALL, whatever ran between that left sp and the pushed entry as the CALL left them, goes back to the
address the CALL pushed and to the sp before it (R78). -/
def Obligations.CallThenReturnComesBack : Prop :=
  ∀ (nnn : Addr) (s t u : State), exec (.call nnn) s = .next t → u.sp = t.sp →
    (∀ j : Fin 16, j.val < t.sp.val → u.stack[j.val] = t.stack[j.val]) →
    ∃ v, exec .ret u = .next v ∧ v.pc = s.pc ∧ v.sp = s.sp ∧
      ∀ j : Fin 16, j.val < s.sp.val → v.stack[j.val] = s.stack[j.val]

/-- SE Vx, kk and SNE Vx, kk (R79, R80): a skip moves pc two further (40 R72). -/
def Obligations.SkipOnImmediate : Prop :=
  (∀ (x : RegIdx) (kk : Byte), decode (wordXKK 0x3 x.val kk.toNat) = .ok (.seImm x kk) ∧
    decode (wordXKK 0x4 x.val kk.toNat) = .ok (.sneImm x kk)) ∧
  (∀ (x : RegIdx) (kk : Byte) (s : State), ∃ t, exec (.seImm x kk) s = .next t ∧
    t.pc = (if s.getV x = kk then s.pc + 2 else s.pc) ∧ ChangesOnly s t (· ∈ [Part.pc])) ∧
  (∀ (x : RegIdx) (kk : Byte) (s : State), ∃ t, exec (.sneImm x kk) s = .next t ∧
    t.pc = (if s.getV x = kk then s.pc else s.pc + 2) ∧ ChangesOnly s t (· ∈ [Part.pc]))

/-- SE Vx, Vy and SNE Vx, Vy, with any n (R81, R82). -/
def Obligations.SkipOnRegisters : Prop :=
  (∀ x y n : Fin 16, decode (wordXYN 0x5 x.val y.val n.val) = .ok (.seReg x y) ∧
    decode (wordXYN 0x9 x.val y.val n.val) = .ok (.sneReg x y)) ∧
  (∀ (x y : RegIdx) (s : State), ∃ t, exec (.seReg x y) s = .next t ∧
    t.pc = (if s.getV x = s.getV y then s.pc + 2 else s.pc) ∧ ChangesOnly s t (· ∈ [Part.pc])) ∧
  (∀ (x y : RegIdx) (s : State), ∃ t, exec (.sneReg x y) s = .next t ∧
    t.pc = (if s.getV x = s.getV y then s.pc else s.pc + 2) ∧ ChangesOnly s t (· ∈ [Part.pc]))

/-- JP V0, nnn (R83): not reduced mod 4096, and never past 0x10FE. -/
def Obligations.JumpWithOffsetAddsV0 : Prop :=
  (∀ nnn : Addr, decode (wordNNN 0xB nnn.toNat) = .ok (.jpV0 nnn)) ∧
  (∀ (nnn : Addr) (s : State), ∃ t, exec (.jpV0 nnn) s = .next t ∧ t.pc.toNat = nnn.toNat + (s.getV 0).toNat ∧
    t.pc.toNat ≤ 0x10FE ∧ ChangesOnly s t (· ∈ [Part.pc]))

/-! ## The ALU and the register moves (42_alu.md) -/

/-- LD Vx, kk; ADD Vx, kk; LD Vx, Vy (R86, R87, R88): no flag. -/
def Obligations.MovesAndAddImmediate : Prop :=
  (∀ (x y : RegIdx) (kk : Byte), decode (wordXKK 0x6 x.val kk.toNat) = .ok (.ldImm x kk) ∧
    decode (wordXKK 0x7 x.val kk.toNat) = .ok (.addImm x kk) ∧
    decode (wordXYN 0x8 x.val y.val 0x0) = .ok (.ldReg x y)) ∧
  (∀ (x : RegIdx) (kk : Byte) (s : State), ∃ t, exec (.ldImm x kk) s = .next t ∧ t.getV x = kk ∧
    ChangesOnly s t (· ∈ [Part.v x])) ∧
  (∀ (x : RegIdx) (kk : Byte) (s : State), ∃ t, exec (.addImm x kk) s = .next t ∧
    (t.getV x).toNat = ((s.getV x).toNat + kk.toNat) % 256 ∧ ChangesOnly s t (· ∈ [Part.v x])) ∧
  (∀ (x y : RegIdx) (s : State), ∃ t, exec (.ldReg x y) s = .next t ∧ t.getV x = s.getV y ∧
    ChangesOnly s t (· ∈ [Part.v x]))

/-- OR, AND, XOR (R89, R90, R91), bit by bit; VF is not reset. -/
def Obligations.LogicInstructions : Prop :=
  (∀ x y : RegIdx, decode (wordXYN 0x8 x.val y.val 0x1) = .ok (.orReg x y) ∧
    decode (wordXYN 0x8 x.val y.val 0x2) = .ok (.andReg x y) ∧
    decode (wordXYN 0x8 x.val y.val 0x3) = .ok (.xorReg x y)) ∧
  (∀ (x y : RegIdx) (s : State), ∃ t, exec (.orReg x y) s = .next t ∧
    (∀ b, (t.getV x).getLsbD b = ((s.getV x).getLsbD b || (s.getV y).getLsbD b)) ∧
    ChangesOnly s t (· ∈ [Part.v x])) ∧
  (∀ (x y : RegIdx) (s : State), ∃ t, exec (.andReg x y) s = .next t ∧
    (∀ b, (t.getV x).getLsbD b = ((s.getV x).getLsbD b && (s.getV y).getLsbD b)) ∧
    ChangesOnly s t (· ∈ [Part.v x])) ∧
  (∀ (x y : RegIdx) (s : State), ∃ t, exec (.xorReg x y) s = .next t ∧
    (∀ b, (t.getV x).getLsbD b = ((s.getV x).getLsbD b ^^ (s.getV y).getLsbD b)) ∧
    ChangesOnly s t (· ∈ [Part.v x]))

/-- ADD Vx, Vy (R92): V[x] ends as the sum mod 256, also for x = 0xF; for x other than 0xF, VF ends as the carry. -/
def Obligations.AddSetsTheCarry : Prop :=
  (∀ x y : RegIdx, decode (wordXYN 0x8 x.val y.val 0x4) = .ok (.addReg x y)) ∧
  (∀ (x y : RegIdx) (s : State), ∃ t, exec (.addReg x y) s = .next t ∧
    (t.getV x).toNat = ((s.getV x).toNat + (s.getV y).toNat) % 256 ∧
    (x ≠ 15 → (t.getV 15).toNat = if (s.getV x).toNat + (s.getV y).toNat > 255 then 1 else 0) ∧
    ChangesOnly s t (· ∈ [Part.v x, .v 15]))

/-- SUB Vx, Vy and SUBN Vx, Vy (R93, R95). The flag f is 1 exactly when the minuend is strictly greater, and is written to
VF first; the difference is then taken of the registers as they stand, f in the place of VF (00 R12; 42 R99). -/
def Obligations.SubtractSetsNotBorrow : Prop :=
  (∀ x y : RegIdx, decode (wordXYN 0x8 x.val y.val 0x5) = .ok (.sub x y) ∧
    decode (wordXYN 0x8 x.val y.val 0x7) = .ok (.subn x y)) ∧
  (∀ (x y : RegIdx) (s : State), ∃ t f a b, exec (.sub x y) s = .next t ∧
    f = (if (s.getV x).toNat > (s.getV y).toNat then 1 else 0) ∧
    a = (if x = 15 then f else (s.getV x).toNat) ∧ b = (if y = 15 then f else (s.getV y).toNat) ∧
    (t.getV x).toNat = (a + 256 - b) % 256 ∧ (x ≠ 15 → (t.getV 15).toNat = f) ∧
    ChangesOnly s t (· ∈ [Part.v x, .v 15])) ∧
  (∀ (x y : RegIdx) (s : State), ∃ t f a b, exec (.subn x y) s = .next t ∧
    f = (if (s.getV y).toNat > (s.getV x).toNat then 1 else 0) ∧
    a = (if x = 15 then f else (s.getV x).toNat) ∧ b = (if y = 15 then f else (s.getV y).toNat) ∧
    (t.getV x).toNat = (b + 256 - a) % 256 ∧ (x ≠ 15 → (t.getV 15).toNat = f) ∧
    ChangesOnly s t (· ∈ [Part.v x, .v 15]))

/-- SHR Vx and SHL Vx, with any y (R94, R96): VF takes the bit moved out of V[x], then V[x] is shifted by 1; for x = 0xF the
shift is of the flag just written, so VF ends 0 after SHR and 0 or 2 after SHL. -/
def Obligations.ShiftsMoveOneBitOut : Prop :=
  (∀ x y : RegIdx, decode (wordXYN 0x8 x.val y.val 0x6) = .ok (.shr x) ∧
    decode (wordXYN 0x8 x.val y.val 0xE) = .ok (.shl x)) ∧
  (∀ (x : RegIdx) (s : State), ∃ t, exec (.shr x) s = .next t ∧
    (t.getV x).toNat = (if x = 15 then 0 else (s.getV x).toNat / 2) ∧
    (x ≠ 15 → (t.getV 15).toNat = (s.getV x).toNat % 2) ∧ ChangesOnly s t (· ∈ [Part.v x, .v 15])) ∧
  (∀ (x : RegIdx) (s : State), ∃ t, exec (.shl x) s = .next t ∧
    (t.getV x).toNat = (if x = 15 then 2 * ((s.getV x).toNat / 128) else (s.getV x).toNat * 2 % 256) ∧
    (x ≠ 15 → (t.getV 15).toNat = (s.getV x).toNat / 128) ∧ ChangesOnly s t (· ∈ [Part.v x, .v 15]))

/-- RND Vx, kk (R97, R98): V[x] is the fresh draw masked by kk, so no bit outside kk is set. That the draw is the free value
`Config.freeByte` at the counter, and that the counter goes up by 1, are the model's own form of the oracle of R98 (log
entry 2, DESIGN CHOICE), no rule of the spec. -/
def Obligations.RandomByteIsMasked : Prop :=
  (∀ (x : RegIdx) (kk : Byte), decode (wordXKK 0xC x.val kk.toNat) = .ok (.rnd x kk)) ∧
  (∀ (x : RegIdx) (kk : Byte) (s : State), ∃ t, exec (.rnd x kk) s = .next t ∧
    (∀ b, (t.getV x).getLsbD b = ((Config.freeByte s.draws).getLsbD b && kk.getLsbD b)) ∧
    t.draws = s.draws + 1 ∧ ChangesOnly s t (· ∈ [Part.v x, .draws]))

/-! ## The index register and the memory transfers (43_index_memory.md) -/

/-- LD I, nnn; ADD I, Vx; LD F, Vx (R101, R102, R103). -/
def Obligations.IndexRegisterInstructions : Prop :=
  (∀ (nnn : Addr) (x n : Fin 16), decode (wordNNN 0xA nnn.toNat) = .ok (.ldI nnn) ∧
    decode (wordXKK 0xF x.val 0x1E) = .ok (.addI x) ∧ decode (wordXYN 0xF x.val 0x2 n.val) = .ok (.ldF x)) ∧
  (∀ (nnn : Addr) (s : State), ∃ t, exec (.ldI nnn) s = .next t ∧ t.i.toNat = nnn.toNat ∧
    ChangesOnly s t (· ∈ [Part.i])) ∧
  (∀ (x : RegIdx) (s : State), ∃ t, exec (.addI x) s = .next t ∧
    t.i.toNat = (s.i.toNat + (s.getV x).toNat) % 65536 ∧ ChangesOnly s t (· ∈ [Part.i])) ∧
  (∀ (x : RegIdx) (s : State), ∃ t, exec (.ldF x) s = .next t ∧
    t.i.toNat = 0x050 + (s.getV x).toNat * 5 ∧ ChangesOnly s t (· ∈ [Part.i]))

/-- LD B, Vx (R104): hundreds, tens and ones at I, I+1, I+2, no other byte; the range is checked before any write. -/
def Obligations.DecimalDigitsAreStored : Prop :=
  (∀ x n : Fin 16, decode (wordXYN 0xF x.val 0x3 n.val) = .ok (.ldB x)) ∧
  (∀ (x : RegIdx) (s : State), s.i.toNat + 2 ≤ 0xFFF → ∃ t, exec (.ldB x) s = .next t ∧
    (t.readByte s.i.toNat).toNat = (s.getV x).toNat / 100 ∧
    (t.readByte (s.i.toNat + 1)).toNat = (s.getV x).toNat / 10 % 10 ∧
    (t.readByte (s.i.toNat + 2)).toNat = (s.getV x).toNat % 10 ∧
    ChangesOnly s t (fun p => ∃ a, s.atIndex 3 a ∧ p = .byte a)) ∧
  (∀ (x : RegIdx) (s : State), 0xFFF < s.i.toNat + 2 →
    exec (.ldB x) s = .fault (.memoryOutOfRange (s.i.toNat + 2)))

/-- LD [I], Vx (R105): V0 to Vx at I to I + x, no other byte, I unchanged. -/
def Obligations.RegistersAreStored : Prop :=
  (∀ x n : Fin 16, decode (wordXYN 0xF x.val 0x5 n.val) = .ok (.stRegs x)) ∧
  (∀ (x : RegIdx) (s : State), s.i.toNat + x.val ≤ 0xFFF → ∃ t, exec (.stRegs x) s = .next t ∧
    (∀ r : RegIdx, r ≤ x → t.readByte (s.i.toNat + r.val) = s.getV r) ∧
    ChangesOnly s t (fun p => ∃ a, s.atIndex (x.val + 1) a ∧ p = .byte a)) ∧
  (∀ (x : RegIdx) (s : State), 0xFFF < s.i.toNat + x.val →
    exec (.stRegs x) s = .fault (.memoryOutOfRange (s.i.toNat + x.val)))

/-- LD Vx, [I] (R106): V0 to Vx from I to I + x, no other register, I unchanged. -/
def Obligations.RegistersAreLoaded : Prop :=
  (∀ x n : Fin 16, decode (wordXYN 0xF x.val 0x6 n.val) = .ok (.ldRegs x)) ∧
  (∀ (x : RegIdx) (s : State), s.i.toNat + x.val ≤ 0xFFF → ∃ t, exec (.ldRegs x) s = .next t ∧
    (∀ r : RegIdx, r ≤ x → t.getV r = s.readByte (s.i.toNat + r.val)) ∧
    ChangesOnly s t (fun p => ∃ r, r ≤ x ∧ p = .v r)) ∧
  (∀ (x : RegIdx) (s : State), 0xFFF < s.i.toNat + x.val →
    exec (.ldRegs x) s = .fault (.memoryOutOfRange (s.i.toNat + x.val)))

/-! ## Display, keys and timers (44_display_keys_timers.md) -/

/-- CLS (R107), whatever the framebuffer held. -/
def Obligations.ClearBlanksTheFramebuffer : Prop :=
  (∀ x : Fin 16, decode (wordXKK 0x0 x.val 0xE0) = .ok .cls) ∧
  (∀ (s : State), ∃ t, exec .cls s = .next t ∧ (∀ r c, t.gfx.pixel r c = false) ∧ t.redraw = true ∧
    ChangesOnly s t (fun p => p = .redraw ∨ ∃ r c, p = .pixel r c))

/-- DRW Vx, Vy, n (R108), as a formula for each pixel: exactly the pixels under a set sprite bit flip, wrapped at both
edges; VF is 1 when one of them was 1 before, else 0; redraw is set. Log entry 15: bit 7 of a sprite byte is the leftmost
pixel (PRESUMED; R108 takes it from general knowledge, D18), and the origin is that of V[x], V[y] before VF is written
(DEDUCED; D17). -/
def Obligations.DrawFlipsTheSpritesPixels : Prop :=
  (∀ x y n : Fin 16, decode (wordXYN 0xD x.val y.val n.val) = .ok (.drw x y n)) ∧
  (∀ (x y : RegIdx) (n : Fin 16) (s : State), n.val = 0 ∨ s.i.toNat + n.val - 1 ≤ 0xFFF →
    ∃ t, exec (.drw x y n) s = .next t ∧
      (∀ r c, t.gfx.pixel r c = (s.gfx.pixel r c ^^ s.spriteCovers x y n.val r c)) ∧
      (t.getV 15 = 1 ∨ t.getV 15 = 0) ∧
      (t.getV 15 = 1 ↔ ∃ r c, s.spriteCovers x y n.val r c = true ∧ s.gfx.pixel r c = true) ∧ t.redraw = true ∧
      ChangesOnly s t (fun p => p = .v 15 ∨ p = .redraw ∨ ∃ r c, p = .pixel r c)) ∧
  (∀ (x y : RegIdx) (n : Fin 16) (s : State), 0 < n.val → 0xFFF < s.i.toNat + n.val - 1 →
    exec (.drw x y n) s = .fault (.memoryOutOfRange (s.i.toNat + n.val - 1)))

/-- Two DRW with the same sprite, origin and memory, one after the other: the framebuffer is as before the first, and the
second sets VF exactly when some set sprite bit fell on a pixel that was 0 before the first (R109). Which pixel a sprite
bit falls on is as log entry 15 says (bit 7 leftmost, PRESUMED). -/
def Obligations.DrawingTwiceRestores : Prop :=
  ∀ (x y : RegIdx) (n : Fin 16) (s t u v : State), exec (.drw x y n) s = .next t →
    u.gfx = t.gfx → u.i = s.i → u.getV x = s.getV x → u.getV y = s.getV y → (∀ a, u.readByte a = s.readByte a) →
    exec (.drw x y n) u = .next v →
    v.gfx = s.gfx ∧ (v.getV 15 = 1 ↔ ∃ r c, s.spriteCovers x y n.val r c = true ∧ s.gfx.pixel r c = false)

/-- SKP Vx and SKNP Vx (R110, R111). -/
def Obligations.SkipOnKey : Prop :=
  (∀ x : Fin 16, decode (wordXKK 0xE x.val 0x9E) = .ok (.skp x) ∧ decode (wordXKK 0xE x.val 0xA1) = .ok (.sknp x)) ∧
  (∀ (x k : RegIdx) (s : State), (s.getV x).toNat = k.val →
    (∃ t, exec (.skp x) s = .next t ∧ t.pc = (if s.keyDown k then s.pc + 2 else s.pc) ∧
      ChangesOnly s t (· ∈ [Part.pc])) ∧
    (∃ t, exec (.sknp x) s = .next t ∧ t.pc = (if s.keyDown k then s.pc else s.pc + 2) ∧
      ChangesOnly s t (· ∈ [Part.pc]))) ∧
  (∀ (x : RegIdx) (s : State), 0xF < (s.getV x).toNat →
    exec (.skp x) s = .fault (.keyIndexOutOfRange (s.getV x)) ∧
    exec (.sknp x) s = .fault (.keyIndexOutOfRange (s.getV x)))

/-- LD Vx, DT; LD DT, Vx; LD ST, Vx (R112, R114, R115). -/
def Obligations.TimerInstructions : Prop :=
  (∀ x : Fin 16, decode (wordXKK 0xF x.val 0x07) = .ok (.ldVxDt x) ∧
    decode (wordXKK 0xF x.val 0x15) = .ok (.ldDtVx x) ∧ decode (wordXKK 0xF x.val 0x18) = .ok (.ldStVx x)) ∧
  (∀ (x : RegIdx) (s : State), ∃ t, exec (.ldVxDt x) s = .next t ∧ t.getV x = s.dt ∧
    ChangesOnly s t (· ∈ [Part.v x])) ∧
  (∀ (x : RegIdx) (s : State), ∃ t, exec (.ldDtVx x) s = .next t ∧ t.dt = s.getV x ∧ ChangesOnly s t (· ∈ [Part.dt])) ∧
  (∀ (x : RegIdx) (s : State), ∃ t, exec (.ldStVx x) s = .next t ∧ t.st = s.getV x ∧ ChangesOnly s t (· ∈ [Part.st]))

/-- LD Vx, K (R113): the lowest pressed key, else pc back by 2 and nothing more. -/
def Obligations.KeyWaitTakesTheLowestKey : Prop :=
  (∀ x : Fin 16, decode (wordXKK 0xF x.val 0x0A) = .ok (.ldVxK x)) ∧
  (∀ (x k : RegIdx) (s : State), s.keyDown k = true → (∀ j < k, s.keyDown j = false) →
    ∃ t, exec (.ldVxK x) s = .next t ∧ (t.getV x).toNat = k.val ∧ ChangesOnly s t (· ∈ [Part.v x])) ∧
  (∀ (x : RegIdx) (s : State), (∀ k, s.keyDown k = false) →
    ∃ t, exec (.ldVxK x) s = .next t ∧ t.pc = s.pc - 2 ∧ ChangesOnly s t (· ∈ [Part.pc]))
end

