-- ==== Sys2Proof/Laws/Memory.lean ====
section
/-! SUPPORT. Memory: what a read gives after a write, and that every operation keeps the canonical form. -/

namespace Sys2Proof.Machine

@[simp] theorem Memory.read_nil (a : Nat) : Memory.read [] a = resetByte a := rfl

theorem Memory.read_cons (b : Nat) (u : Byte) (m : Memory) (a : Nat) :
    Memory.read ((b, u) :: m) a = if b = a then u else Memory.read m a := rfl

/-- An address that no cell lists reads as the reset contents. -/
theorem Memory.read_of_not_listed (m : Memory) (a : Nat) (h : ∀ c ∈ m, c.1 ≠ a) : m.read a = resetByte a := by
  induction m with
  | nil => rfl
  | cons c m ih =>
    obtain ⟨b, u⟩ := c
    have hb : b ≠ a := h (b, u) (by simp)
    rw [Memory.read_cons, if_neg hb]
    exact ih fun c hc => h c (by simp [hc])

theorem Memory.read_filter_ne (m : Memory) (a b : Nat) :
    Memory.read (m.filter fun c => c.1 ≠ a) b = if b = a then resetByte a else m.read b := by
  induction m with
  | nil => by_cases h : b = a <;> simp [h]
  | cons c m ih =>
    obtain ⟨e, u⟩ := c
    by_cases he : e = a
    · subst he
      rw [List.filter_cons_of_neg (by simp), ih, Memory.read_cons]
      by_cases h : b = e
      · simp [h]
      · simp [h, Ne.symm h]
    · rw [List.filter_cons_of_pos (by simpa using he), Memory.read_cons, Memory.read_cons, ih]
      by_cases h : e = b
      · subst h; simp [he]
      · simp [h]

theorem Memory.read_insertCell (a : Nat) (d : Byte) (m : Memory) (b : Nat) (h : ∀ c ∈ m, c.1 ≠ a) :
    Memory.read (Memory.insertCell (a, d) m) b = if b = a then d else m.read b := by
  induction m with
  | nil =>
    by_cases hb : b = a
    · simp [Memory.insertCell, Memory.read, hb]
    · simp [Memory.insertCell, Memory.read, hb, Ne.symm hb]
  | cons c m ih =>
    obtain ⟨e, u⟩ := c
    have he : e ≠ a := h (e, u) (by simp)
    have ih := ih fun c hc => h c (by simp [hc])
    unfold Memory.insertCell
    split
    · by_cases hb : b = a
      · simp [Memory.read_cons, hb]
      · simp [Memory.read_cons, hb, Ne.symm hb]
    · rw [Memory.read_cons, Memory.read_cons, ih]
      by_cases heb : e = b
      · subst heb; simp [he]
      · simp [heb]

/-- A read after a write: the byte written there, every other address as before (20_memory.md R48). -/
@[simp] theorem Memory.read_write (m : Memory) (a : Nat) (d : Byte) (b : Nat) :
    (m.write a d).read b = if b = a then d else m.read b := by
  unfold Memory.write
  dsimp only
  split
  · next hd => rw [Memory.read_filter_ne]; by_cases hb : b = a <;> simp [hb, hd]
  · rw [Memory.read_insertCell, Memory.read_filter_ne]
    · by_cases hb : b = a <;> simp [hb]
    · intro c hc; simpa using (List.mem_filter.mp hc).2

theorem Memory.read_writeBytes (m : Memory) (a : Nat) (ds : List Byte) (b : Nat) :
    (m.writeBytes a ds).read b =
      if h : a ≤ b ∧ b - a < ds.length then ds[b - a]'h.2 else m.read b := by
  induction ds generalizing m a with
  | nil => simp [Memory.writeBytes]
  | cons d ds ih =>
    rw [Memory.writeBytes, ih, Memory.read_write]
    by_cases hb : b = a
    · subst hb; simp
    · by_cases hab : a + 1 ≤ b
      · have e : b - a = (b - (a + 1)) + 1 := by omega
        by_cases hl : b - (a + 1) < ds.length
        · rw [dif_pos ⟨hab, hl⟩, dif_pos (by simp; omega)]
          simp [e]
        · rw [dif_neg (by tauto), dif_neg (by simp; omega), if_neg hb]
      · rw [dif_neg (by omega), dif_neg (by omega), if_neg hb]

@[simp] theorem Memory.readBytes_length (m : Memory) (a n : Nat) : (m.readBytes a n).length = n := by
  induction n generalizing a with
  | zero => rfl
  | succ n ih => simp [Memory.readBytes, ih]

theorem Memory.readBytes_getElem (m : Memory) (a n k : Nat) (h : k < (m.readBytes a n).length) :
    (m.readBytes a n)[k] = m.read (a + k) := by
  induction n generalizing a k with
  | zero => simp [Memory.readBytes] at h
  | succ n ih =>
    cases k with
    | zero => rfl
    | succ k =>
      simp only [Memory.readBytes, List.getElem_cons_succ]
      rw [ih]
      congr 1; omega

/-! ### The canonical form -/

theorem Memory.wf_nil : Memory.wf [] := by simp [Memory.wf]

theorem Memory.wf_filter (m : Memory) (p : Host.Cell → Bool) (h : m.wf) : Memory.wf (m.filter p) :=
  ⟨h.1.sublist List.filter_sublist, fun c hc => h.2 c (List.mem_filter.mp hc).1⟩

theorem Memory.mem_insertCell (c d : Host.Cell) (m : Memory) : d ∈ Memory.insertCell c m ↔ d = c ∨ d ∈ m := by
  induction m with
  | nil => simp [Memory.insertCell]
  | cons e m ih =>
    unfold Memory.insertCell
    split
    · simp
    · simp [ih]; tauto

theorem Memory.wf_insertCell (a : Nat) (d : Byte) (m : Memory) (h : m.wf) (ha : a ≤ lastAddress)
    (hd : d ≠ resetByte a) (hn : ∀ c ∈ m, c.1 ≠ a) : Memory.wf (Memory.insertCell (a, d) m) := by
  refine ⟨?_, fun c hc => ?_⟩
  · obtain ⟨hp, -⟩ := h
    induction m with
    | nil => simp [Memory.insertCell]
    | cons e m ih =>
      have he : e.1 ≠ a := hn e (by simp)
      rw [List.pairwise_cons] at hp
      unfold Memory.insertCell
      split
      · next hlt =>
        refine List.pairwise_cons.mpr ⟨fun c hc => ?_, List.pairwise_cons.mpr hp⟩
        rcases List.mem_cons.mp hc with rfl | hc
        · exact hlt
        · exact Nat.lt_trans hlt (hp.1 c hc)
      · next hlt =>
        refine List.pairwise_cons.mpr ⟨fun c hc => ?_, ih (fun c hc => hn c (by simp [hc])) hp.2⟩
        rcases (Memory.mem_insertCell _ _ _).mp hc with rfl | hc
        · simp only at hlt ⊢; omega
        · exact hp.1 c hc
  · rcases (Memory.mem_insertCell _ _ _).mp hc with rfl | hc
    · exact ⟨ha, hd⟩
    · exact h.2 c hc

/-- A write inside the address space keeps the canonical form. -/
theorem Memory.wf_write (m : Memory) (a : Nat) (d : Byte) (h : m.wf) (ha : a ≤ lastAddress) : (m.write a d).wf := by
  unfold Memory.write
  dsimp only
  split
  · exact Memory.wf_filter m _ h
  · next hd =>
    exact Memory.wf_insertCell a d _ (Memory.wf_filter m _ h) ha hd fun c hc => by
      simpa using (List.mem_filter.mp hc).2

/-- Successive writes inside the address space keep the canonical form. -/
theorem Memory.wf_writeBytes (m : Memory) (a : Nat) (ds : List Byte) (h : m.wf)
    (ha : a + ds.length ≤ lastAddress + 1) : (m.writeBytes a ds).wf := by
  induction ds generalizing m a with
  | nil => exact h
  | cons d ds ih =>
    simp only [List.length_cons] at ha
    exact ih _ _ (Memory.wf_write m a d h (by omega)) (by omega)

/-- The memory at reset is in canonical form. -/
theorem State.reset_mem_wf : State.reset.mem.wf := Memory.wf_nil

end Sys2Proof.Machine
end

