-- ==== Sys2Proof/Laws/State.lean ====
section
/-! SUPPORT. What each update of the state does to each field, true by definition, so that no proof unfolds a record
update; and what the reads of one register, one key and one byte give after it. -/

namespace Sys2Proof.Machine

variable (s : State)

/-! ### setV -/

@[simp] theorem State.setV_v (x : RegIdx) (b : Byte) : (s.setV x b).v = s.v.set x.val b x.isLt := rfl
@[simp] theorem State.setV_i (x : RegIdx) (b : Byte) : (s.setV x b).i = s.i := rfl
@[simp] theorem State.setV_pc (x : RegIdx) (b : Byte) : (s.setV x b).pc = s.pc := rfl
@[simp] theorem State.setV_stack (x : RegIdx) (b : Byte) : (s.setV x b).stack = s.stack := rfl
@[simp] theorem State.setV_sp (x : RegIdx) (b : Byte) : (s.setV x b).sp = s.sp := rfl
@[simp] theorem State.setV_dt (x : RegIdx) (b : Byte) : (s.setV x b).dt = s.dt := rfl
@[simp] theorem State.setV_st (x : RegIdx) (b : Byte) : (s.setV x b).st = s.st := rfl
@[simp] theorem State.setV_gfx (x : RegIdx) (b : Byte) : (s.setV x b).gfx = s.gfx := rfl
@[simp] theorem State.setV_key (x : RegIdx) (b : Byte) : (s.setV x b).key = s.key := rfl
@[simp] theorem State.setV_opcode (x : RegIdx) (b : Byte) : (s.setV x b).opcode = s.opcode := rfl
@[simp] theorem State.setV_redraw (x : RegIdx) (b : Byte) : (s.setV x b).redraw = s.redraw := rfl
@[simp] theorem State.setV_run (x : RegIdx) (b : Byte) : (s.setV x b).run = s.run := rfl
@[simp] theorem State.setV_mem (x : RegIdx) (b : Byte) : (s.setV x b).mem = s.mem := rfl
@[simp] theorem State.setV_loadOpen (x : RegIdx) (b : Byte) : (s.setV x b).loadOpen = s.loadOpen := rfl
@[simp] theorem State.setV_draws (x : RegIdx) (b : Byte) : (s.setV x b).draws = s.draws := rfl
@[simp] theorem State.setV_keyDown (x : RegIdx) (b : Byte) (k : RegIdx) : (s.setV x b).keyDown k = s.keyDown k := rfl
@[simp] theorem State.setV_readByte (x : RegIdx) (b : Byte) (a' : Nat) : (s.setV x b).readByte a' = s.readByte a' := rfl

/-! ### setFlag -/

@[simp] theorem State.setFlag_v (b : Byte) : (s.setFlag b).v = s.v.set vf.val b vf.isLt := rfl
@[simp] theorem State.setFlag_i (b : Byte) : (s.setFlag b).i = s.i := rfl
@[simp] theorem State.setFlag_pc (b : Byte) : (s.setFlag b).pc = s.pc := rfl
@[simp] theorem State.setFlag_stack (b : Byte) : (s.setFlag b).stack = s.stack := rfl
@[simp] theorem State.setFlag_sp (b : Byte) : (s.setFlag b).sp = s.sp := rfl
@[simp] theorem State.setFlag_dt (b : Byte) : (s.setFlag b).dt = s.dt := rfl
@[simp] theorem State.setFlag_st (b : Byte) : (s.setFlag b).st = s.st := rfl
@[simp] theorem State.setFlag_gfx (b : Byte) : (s.setFlag b).gfx = s.gfx := rfl
@[simp] theorem State.setFlag_key (b : Byte) : (s.setFlag b).key = s.key := rfl
@[simp] theorem State.setFlag_opcode (b : Byte) : (s.setFlag b).opcode = s.opcode := rfl
@[simp] theorem State.setFlag_redraw (b : Byte) : (s.setFlag b).redraw = s.redraw := rfl
@[simp] theorem State.setFlag_run (b : Byte) : (s.setFlag b).run = s.run := rfl
@[simp] theorem State.setFlag_mem (b : Byte) : (s.setFlag b).mem = s.mem := rfl
@[simp] theorem State.setFlag_loadOpen (b : Byte) : (s.setFlag b).loadOpen = s.loadOpen := rfl
@[simp] theorem State.setFlag_draws (b : Byte) : (s.setFlag b).draws = s.draws := rfl
@[simp] theorem State.setFlag_keyDown (b : Byte) (k : RegIdx) : (s.setFlag b).keyDown k = s.keyDown k := rfl
@[simp] theorem State.setFlag_readByte (b : Byte) (a' : Nat) : (s.setFlag b).readByte a' = s.readByte a' := rfl

/-! ### setI -/

@[simp] theorem State.setI_v (a : Word) : (s.setI a).v = s.v := rfl
@[simp] theorem State.setI_i (a : Word) : (s.setI a).i = a := rfl
@[simp] theorem State.setI_pc (a : Word) : (s.setI a).pc = s.pc := rfl
@[simp] theorem State.setI_stack (a : Word) : (s.setI a).stack = s.stack := rfl
@[simp] theorem State.setI_sp (a : Word) : (s.setI a).sp = s.sp := rfl
@[simp] theorem State.setI_dt (a : Word) : (s.setI a).dt = s.dt := rfl
@[simp] theorem State.setI_st (a : Word) : (s.setI a).st = s.st := rfl
@[simp] theorem State.setI_gfx (a : Word) : (s.setI a).gfx = s.gfx := rfl
@[simp] theorem State.setI_key (a : Word) : (s.setI a).key = s.key := rfl
@[simp] theorem State.setI_opcode (a : Word) : (s.setI a).opcode = s.opcode := rfl
@[simp] theorem State.setI_redraw (a : Word) : (s.setI a).redraw = s.redraw := rfl
@[simp] theorem State.setI_run (a : Word) : (s.setI a).run = s.run := rfl
@[simp] theorem State.setI_mem (a : Word) : (s.setI a).mem = s.mem := rfl
@[simp] theorem State.setI_loadOpen (a : Word) : (s.setI a).loadOpen = s.loadOpen := rfl
@[simp] theorem State.setI_draws (a : Word) : (s.setI a).draws = s.draws := rfl
@[simp] theorem State.setI_getV (a : Word) (r : RegIdx) : (s.setI a).getV r = s.getV r := rfl
@[simp] theorem State.setI_keyDown (a : Word) (k : RegIdx) : (s.setI a).keyDown k = s.keyDown k := rfl
@[simp] theorem State.setI_readByte (a : Word) (a' : Nat) : (s.setI a).readByte a' = s.readByte a' := rfl

/-! ### setPc -/

@[simp] theorem State.setPc_v (a : Word) : (s.setPc a).v = s.v := rfl
@[simp] theorem State.setPc_i (a : Word) : (s.setPc a).i = s.i := rfl
@[simp] theorem State.setPc_pc (a : Word) : (s.setPc a).pc = a := rfl
@[simp] theorem State.setPc_stack (a : Word) : (s.setPc a).stack = s.stack := rfl
@[simp] theorem State.setPc_sp (a : Word) : (s.setPc a).sp = s.sp := rfl
@[simp] theorem State.setPc_dt (a : Word) : (s.setPc a).dt = s.dt := rfl
@[simp] theorem State.setPc_st (a : Word) : (s.setPc a).st = s.st := rfl
@[simp] theorem State.setPc_gfx (a : Word) : (s.setPc a).gfx = s.gfx := rfl
@[simp] theorem State.setPc_key (a : Word) : (s.setPc a).key = s.key := rfl
@[simp] theorem State.setPc_opcode (a : Word) : (s.setPc a).opcode = s.opcode := rfl
@[simp] theorem State.setPc_redraw (a : Word) : (s.setPc a).redraw = s.redraw := rfl
@[simp] theorem State.setPc_run (a : Word) : (s.setPc a).run = s.run := rfl
@[simp] theorem State.setPc_mem (a : Word) : (s.setPc a).mem = s.mem := rfl
@[simp] theorem State.setPc_loadOpen (a : Word) : (s.setPc a).loadOpen = s.loadOpen := rfl
@[simp] theorem State.setPc_draws (a : Word) : (s.setPc a).draws = s.draws := rfl
@[simp] theorem State.setPc_getV (a : Word) (r : RegIdx) : (s.setPc a).getV r = s.getV r := rfl
@[simp] theorem State.setPc_keyDown (a : Word) (k : RegIdx) : (s.setPc a).keyDown k = s.keyDown k := rfl
@[simp] theorem State.setPc_readByte (a : Word) (a' : Nat) : (s.setPc a).readByte a' = s.readByte a' := rfl

/-! ### skip -/

@[simp] theorem State.skip_v : (s.skip).v = s.v := rfl
@[simp] theorem State.skip_i : (s.skip).i = s.i := rfl
@[simp] theorem State.skip_pc : (s.skip).pc = s.pc + 2 := rfl
@[simp] theorem State.skip_stack : (s.skip).stack = s.stack := rfl
@[simp] theorem State.skip_sp : (s.skip).sp = s.sp := rfl
@[simp] theorem State.skip_dt : (s.skip).dt = s.dt := rfl
@[simp] theorem State.skip_st : (s.skip).st = s.st := rfl
@[simp] theorem State.skip_gfx : (s.skip).gfx = s.gfx := rfl
@[simp] theorem State.skip_key : (s.skip).key = s.key := rfl
@[simp] theorem State.skip_opcode : (s.skip).opcode = s.opcode := rfl
@[simp] theorem State.skip_redraw : (s.skip).redraw = s.redraw := rfl
@[simp] theorem State.skip_run : (s.skip).run = s.run := rfl
@[simp] theorem State.skip_mem : (s.skip).mem = s.mem := rfl
@[simp] theorem State.skip_loadOpen : (s.skip).loadOpen = s.loadOpen := rfl
@[simp] theorem State.skip_draws : (s.skip).draws = s.draws := rfl
@[simp] theorem State.skip_getV (r : RegIdx) : (s.skip).getV r = s.getV r := rfl
@[simp] theorem State.skip_keyDown (k : RegIdx) : (s.skip).keyDown k = s.keyDown k := rfl
@[simp] theorem State.skip_readByte (a' : Nat) : (s.skip).readByte a' = s.readByte a' := rfl

/-! ### rewind -/

@[simp] theorem State.rewind_v : (s.rewind).v = s.v := rfl
@[simp] theorem State.rewind_i : (s.rewind).i = s.i := rfl
@[simp] theorem State.rewind_pc : (s.rewind).pc = s.pc - 2 := rfl
@[simp] theorem State.rewind_stack : (s.rewind).stack = s.stack := rfl
@[simp] theorem State.rewind_sp : (s.rewind).sp = s.sp := rfl
@[simp] theorem State.rewind_dt : (s.rewind).dt = s.dt := rfl
@[simp] theorem State.rewind_st : (s.rewind).st = s.st := rfl
@[simp] theorem State.rewind_gfx : (s.rewind).gfx = s.gfx := rfl
@[simp] theorem State.rewind_key : (s.rewind).key = s.key := rfl
@[simp] theorem State.rewind_opcode : (s.rewind).opcode = s.opcode := rfl
@[simp] theorem State.rewind_redraw : (s.rewind).redraw = s.redraw := rfl
@[simp] theorem State.rewind_run : (s.rewind).run = s.run := rfl
@[simp] theorem State.rewind_mem : (s.rewind).mem = s.mem := rfl
@[simp] theorem State.rewind_loadOpen : (s.rewind).loadOpen = s.loadOpen := rfl
@[simp] theorem State.rewind_draws : (s.rewind).draws = s.draws := rfl
@[simp] theorem State.rewind_getV (r : RegIdx) : (s.rewind).getV r = s.getV r := rfl
@[simp] theorem State.rewind_keyDown (k : RegIdx) : (s.rewind).keyDown k = s.keyDown k := rfl
@[simp] theorem State.rewind_readByte (a' : Nat) : (s.rewind).readByte a' = s.readByte a' := rfl

/-! ### setDt -/

@[simp] theorem State.setDt_v (b : Byte) : (s.setDt b).v = s.v := rfl
@[simp] theorem State.setDt_i (b : Byte) : (s.setDt b).i = s.i := rfl
@[simp] theorem State.setDt_pc (b : Byte) : (s.setDt b).pc = s.pc := rfl
@[simp] theorem State.setDt_stack (b : Byte) : (s.setDt b).stack = s.stack := rfl
@[simp] theorem State.setDt_sp (b : Byte) : (s.setDt b).sp = s.sp := rfl
@[simp] theorem State.setDt_dt (b : Byte) : (s.setDt b).dt = b := rfl
@[simp] theorem State.setDt_st (b : Byte) : (s.setDt b).st = s.st := rfl
@[simp] theorem State.setDt_gfx (b : Byte) : (s.setDt b).gfx = s.gfx := rfl
@[simp] theorem State.setDt_key (b : Byte) : (s.setDt b).key = s.key := rfl
@[simp] theorem State.setDt_opcode (b : Byte) : (s.setDt b).opcode = s.opcode := rfl
@[simp] theorem State.setDt_redraw (b : Byte) : (s.setDt b).redraw = s.redraw := rfl
@[simp] theorem State.setDt_run (b : Byte) : (s.setDt b).run = s.run := rfl
@[simp] theorem State.setDt_mem (b : Byte) : (s.setDt b).mem = s.mem := rfl
@[simp] theorem State.setDt_loadOpen (b : Byte) : (s.setDt b).loadOpen = s.loadOpen := rfl
@[simp] theorem State.setDt_draws (b : Byte) : (s.setDt b).draws = s.draws := rfl
@[simp] theorem State.setDt_getV (b : Byte) (r : RegIdx) : (s.setDt b).getV r = s.getV r := rfl
@[simp] theorem State.setDt_keyDown (b : Byte) (k : RegIdx) : (s.setDt b).keyDown k = s.keyDown k := rfl
@[simp] theorem State.setDt_readByte (b : Byte) (a' : Nat) : (s.setDt b).readByte a' = s.readByte a' := rfl

/-! ### setSt -/

@[simp] theorem State.setSt_v (b : Byte) : (s.setSt b).v = s.v := rfl
@[simp] theorem State.setSt_i (b : Byte) : (s.setSt b).i = s.i := rfl
@[simp] theorem State.setSt_pc (b : Byte) : (s.setSt b).pc = s.pc := rfl
@[simp] theorem State.setSt_stack (b : Byte) : (s.setSt b).stack = s.stack := rfl
@[simp] theorem State.setSt_sp (b : Byte) : (s.setSt b).sp = s.sp := rfl
@[simp] theorem State.setSt_dt (b : Byte) : (s.setSt b).dt = s.dt := rfl
@[simp] theorem State.setSt_st (b : Byte) : (s.setSt b).st = b := rfl
@[simp] theorem State.setSt_gfx (b : Byte) : (s.setSt b).gfx = s.gfx := rfl
@[simp] theorem State.setSt_key (b : Byte) : (s.setSt b).key = s.key := rfl
@[simp] theorem State.setSt_opcode (b : Byte) : (s.setSt b).opcode = s.opcode := rfl
@[simp] theorem State.setSt_redraw (b : Byte) : (s.setSt b).redraw = s.redraw := rfl
@[simp] theorem State.setSt_run (b : Byte) : (s.setSt b).run = s.run := rfl
@[simp] theorem State.setSt_mem (b : Byte) : (s.setSt b).mem = s.mem := rfl
@[simp] theorem State.setSt_loadOpen (b : Byte) : (s.setSt b).loadOpen = s.loadOpen := rfl
@[simp] theorem State.setSt_draws (b : Byte) : (s.setSt b).draws = s.draws := rfl
@[simp] theorem State.setSt_getV (b : Byte) (r : RegIdx) : (s.setSt b).getV r = s.getV r := rfl
@[simp] theorem State.setSt_keyDown (b : Byte) (k : RegIdx) : (s.setSt b).keyDown k = s.keyDown k := rfl
@[simp] theorem State.setSt_readByte (b : Byte) (a' : Nat) : (s.setSt b).readByte a' = s.readByte a' := rfl

/-! ### setGfx -/

@[simp] theorem State.setGfx_v (g : Gfx) : (s.setGfx g).v = s.v := rfl
@[simp] theorem State.setGfx_i (g : Gfx) : (s.setGfx g).i = s.i := rfl
@[simp] theorem State.setGfx_pc (g : Gfx) : (s.setGfx g).pc = s.pc := rfl
@[simp] theorem State.setGfx_stack (g : Gfx) : (s.setGfx g).stack = s.stack := rfl
@[simp] theorem State.setGfx_sp (g : Gfx) : (s.setGfx g).sp = s.sp := rfl
@[simp] theorem State.setGfx_dt (g : Gfx) : (s.setGfx g).dt = s.dt := rfl
@[simp] theorem State.setGfx_st (g : Gfx) : (s.setGfx g).st = s.st := rfl
@[simp] theorem State.setGfx_gfx (g : Gfx) : (s.setGfx g).gfx = g := rfl
@[simp] theorem State.setGfx_key (g : Gfx) : (s.setGfx g).key = s.key := rfl
@[simp] theorem State.setGfx_opcode (g : Gfx) : (s.setGfx g).opcode = s.opcode := rfl
@[simp] theorem State.setGfx_redraw (g : Gfx) : (s.setGfx g).redraw = true := rfl
@[simp] theorem State.setGfx_run (g : Gfx) : (s.setGfx g).run = s.run := rfl
@[simp] theorem State.setGfx_mem (g : Gfx) : (s.setGfx g).mem = s.mem := rfl
@[simp] theorem State.setGfx_loadOpen (g : Gfx) : (s.setGfx g).loadOpen = s.loadOpen := rfl
@[simp] theorem State.setGfx_draws (g : Gfx) : (s.setGfx g).draws = s.draws := rfl
@[simp] theorem State.setGfx_getV (g : Gfx) (r : RegIdx) : (s.setGfx g).getV r = s.getV r := rfl
@[simp] theorem State.setGfx_keyDown (g : Gfx) (k : RegIdx) : (s.setGfx g).keyDown k = s.keyDown k := rfl
@[simp] theorem State.setGfx_readByte (g : Gfx) (a' : Nat) : (s.setGfx g).readByte a' = s.readByte a' := rfl

/-! ### storeBytes -/

@[simp] theorem State.storeBytes_v (a : Nat) (ds : List Byte) : (s.storeBytes a ds).v = s.v := rfl
@[simp] theorem State.storeBytes_i (a : Nat) (ds : List Byte) : (s.storeBytes a ds).i = s.i := rfl
@[simp] theorem State.storeBytes_pc (a : Nat) (ds : List Byte) : (s.storeBytes a ds).pc = s.pc := rfl
@[simp] theorem State.storeBytes_stack (a : Nat) (ds : List Byte) : (s.storeBytes a ds).stack = s.stack := rfl
@[simp] theorem State.storeBytes_sp (a : Nat) (ds : List Byte) : (s.storeBytes a ds).sp = s.sp := rfl
@[simp] theorem State.storeBytes_dt (a : Nat) (ds : List Byte) : (s.storeBytes a ds).dt = s.dt := rfl
@[simp] theorem State.storeBytes_st (a : Nat) (ds : List Byte) : (s.storeBytes a ds).st = s.st := rfl
@[simp] theorem State.storeBytes_gfx (a : Nat) (ds : List Byte) : (s.storeBytes a ds).gfx = s.gfx := rfl
@[simp] theorem State.storeBytes_key (a : Nat) (ds : List Byte) : (s.storeBytes a ds).key = s.key := rfl
@[simp] theorem State.storeBytes_opcode (a : Nat) (ds : List Byte) : (s.storeBytes a ds).opcode = s.opcode := rfl
@[simp] theorem State.storeBytes_redraw (a : Nat) (ds : List Byte) : (s.storeBytes a ds).redraw = s.redraw := rfl
@[simp] theorem State.storeBytes_run (a : Nat) (ds : List Byte) : (s.storeBytes a ds).run = s.run := rfl
@[simp] theorem State.storeBytes_mem (a : Nat) (ds : List Byte) : (s.storeBytes a ds).mem = s.mem.writeBytes a ds := rfl
@[simp] theorem State.storeBytes_loadOpen (a : Nat) (ds : List Byte) : (s.storeBytes a ds).loadOpen = s.loadOpen := rfl
@[simp] theorem State.storeBytes_draws (a : Nat) (ds : List Byte) : (s.storeBytes a ds).draws = s.draws := rfl
@[simp] theorem State.storeBytes_getV (a : Nat) (ds : List Byte) (r : RegIdx) : (s.storeBytes a ds).getV r = s.getV r := rfl
@[simp] theorem State.storeBytes_keyDown (a : Nat) (ds : List Byte) (k : RegIdx) : (s.storeBytes a ds).keyDown k = s.keyDown k := rfl

/-! ### loadRegsFrom -/

@[simp] theorem State.loadRegsFrom_i (a : Nat) (x : RegIdx) : (s.loadRegsFrom a x).i = s.i := rfl
@[simp] theorem State.loadRegsFrom_pc (a : Nat) (x : RegIdx) : (s.loadRegsFrom a x).pc = s.pc := rfl
@[simp] theorem State.loadRegsFrom_stack (a : Nat) (x : RegIdx) : (s.loadRegsFrom a x).stack = s.stack := rfl
@[simp] theorem State.loadRegsFrom_sp (a : Nat) (x : RegIdx) : (s.loadRegsFrom a x).sp = s.sp := rfl
@[simp] theorem State.loadRegsFrom_dt (a : Nat) (x : RegIdx) : (s.loadRegsFrom a x).dt = s.dt := rfl
@[simp] theorem State.loadRegsFrom_st (a : Nat) (x : RegIdx) : (s.loadRegsFrom a x).st = s.st := rfl
@[simp] theorem State.loadRegsFrom_gfx (a : Nat) (x : RegIdx) : (s.loadRegsFrom a x).gfx = s.gfx := rfl
@[simp] theorem State.loadRegsFrom_key (a : Nat) (x : RegIdx) : (s.loadRegsFrom a x).key = s.key := rfl
@[simp] theorem State.loadRegsFrom_opcode (a : Nat) (x : RegIdx) : (s.loadRegsFrom a x).opcode = s.opcode := rfl
@[simp] theorem State.loadRegsFrom_redraw (a : Nat) (x : RegIdx) : (s.loadRegsFrom a x).redraw = s.redraw := rfl
@[simp] theorem State.loadRegsFrom_run (a : Nat) (x : RegIdx) : (s.loadRegsFrom a x).run = s.run := rfl
@[simp] theorem State.loadRegsFrom_mem (a : Nat) (x : RegIdx) : (s.loadRegsFrom a x).mem = s.mem := rfl
@[simp] theorem State.loadRegsFrom_loadOpen (a : Nat) (x : RegIdx) : (s.loadRegsFrom a x).loadOpen = s.loadOpen := rfl
@[simp] theorem State.loadRegsFrom_draws (a : Nat) (x : RegIdx) : (s.loadRegsFrom a x).draws = s.draws := rfl
@[simp] theorem State.loadRegsFrom_keyDown (a : Nat) (x : RegIdx) (k : RegIdx) : (s.loadRegsFrom a x).keyDown k = s.keyDown k := rfl
@[simp] theorem State.loadRegsFrom_readByte (a : Nat) (x : RegIdx) (a' : Nat) : (s.loadRegsFrom a x).readByte a' = s.readByte a' := rfl

/-! ### draw -/

@[simp] theorem State.draw_v : (s.draw.2).v = s.v := rfl
@[simp] theorem State.draw_i : (s.draw.2).i = s.i := rfl
@[simp] theorem State.draw_pc : (s.draw.2).pc = s.pc := rfl
@[simp] theorem State.draw_stack : (s.draw.2).stack = s.stack := rfl
@[simp] theorem State.draw_sp : (s.draw.2).sp = s.sp := rfl
@[simp] theorem State.draw_dt : (s.draw.2).dt = s.dt := rfl
@[simp] theorem State.draw_st : (s.draw.2).st = s.st := rfl
@[simp] theorem State.draw_gfx : (s.draw.2).gfx = s.gfx := rfl
@[simp] theorem State.draw_key : (s.draw.2).key = s.key := rfl
@[simp] theorem State.draw_opcode : (s.draw.2).opcode = s.opcode := rfl
@[simp] theorem State.draw_redraw : (s.draw.2).redraw = s.redraw := rfl
@[simp] theorem State.draw_run : (s.draw.2).run = s.run := rfl
@[simp] theorem State.draw_mem : (s.draw.2).mem = s.mem := rfl
@[simp] theorem State.draw_loadOpen : (s.draw.2).loadOpen = s.loadOpen := rfl
@[simp] theorem State.draw_draws : (s.draw.2).draws = s.draws + 1 := rfl
@[simp] theorem State.draw_getV (r : RegIdx) : (s.draw.2).getV r = s.getV r := rfl
@[simp] theorem State.draw_keyDown (k : RegIdx) : (s.draw.2).keyDown k = s.keyDown k := rfl
@[simp] theorem State.draw_readByte (a' : Nat) : (s.draw.2).readByte a' = s.readByte a' := rfl

/-! ### fetched -/

@[simp] theorem State.fetched_v : (s.fetched).v = s.v := rfl
@[simp] theorem State.fetched_i : (s.fetched).i = s.i := rfl
@[simp] theorem State.fetched_pc : (s.fetched).pc = s.pc + 2 := rfl
@[simp] theorem State.fetched_stack : (s.fetched).stack = s.stack := rfl
@[simp] theorem State.fetched_sp : (s.fetched).sp = s.sp := rfl
@[simp] theorem State.fetched_dt : (s.fetched).dt = s.dt := rfl
@[simp] theorem State.fetched_st : (s.fetched).st = s.st := rfl
@[simp] theorem State.fetched_gfx : (s.fetched).gfx = s.gfx := rfl
@[simp] theorem State.fetched_key : (s.fetched).key = s.key := rfl
@[simp] theorem State.fetched_opcode : (s.fetched).opcode = s.fetchWord := rfl
@[simp] theorem State.fetched_redraw : (s.fetched).redraw = false := rfl
@[simp] theorem State.fetched_run : (s.fetched).run = s.run := rfl
@[simp] theorem State.fetched_mem : (s.fetched).mem = s.mem := rfl
@[simp] theorem State.fetched_loadOpen : (s.fetched).loadOpen = false := rfl
@[simp] theorem State.fetched_draws : (s.fetched).draws = s.draws := rfl
@[simp] theorem State.fetched_getV (r : RegIdx) : (s.fetched).getV r = s.getV r := rfl
@[simp] theorem State.fetched_keyDown (k : RegIdx) : (s.fetched).keyDown k = s.keyDown k := rfl
@[simp] theorem State.fetched_readByte (a' : Nat) : (s.fetched).readByte a' = s.readByte a' := rfl

/-! ### halt -/

@[simp] theorem State.halt_v (cause : Fault) : (s.halt cause).v = s.v := rfl
@[simp] theorem State.halt_i (cause : Fault) : (s.halt cause).i = s.i := rfl
@[simp] theorem State.halt_pc (cause : Fault) : (s.halt cause).pc = s.pc := rfl
@[simp] theorem State.halt_stack (cause : Fault) : (s.halt cause).stack = s.stack := rfl
@[simp] theorem State.halt_sp (cause : Fault) : (s.halt cause).sp = s.sp := rfl
@[simp] theorem State.halt_dt (cause : Fault) : (s.halt cause).dt = s.dt := rfl
@[simp] theorem State.halt_st (cause : Fault) : (s.halt cause).st = s.st := rfl
@[simp] theorem State.halt_gfx (cause : Fault) : (s.halt cause).gfx = s.gfx := rfl
@[simp] theorem State.halt_key (cause : Fault) : (s.halt cause).key = s.key := rfl
@[simp] theorem State.halt_opcode (cause : Fault) : (s.halt cause).opcode = s.opcode := rfl
@[simp] theorem State.halt_redraw (cause : Fault) : (s.halt cause).redraw = s.redraw := rfl
@[simp] theorem State.halt_run (cause : Fault) : (s.halt cause).run = .halted cause := rfl
@[simp] theorem State.halt_mem (cause : Fault) : (s.halt cause).mem = s.mem := rfl
@[simp] theorem State.halt_loadOpen (cause : Fault) : (s.halt cause).loadOpen = s.loadOpen := rfl
@[simp] theorem State.halt_draws (cause : Fault) : (s.halt cause).draws = s.draws := rfl
@[simp] theorem State.halt_getV (cause : Fault) (r : RegIdx) : (s.halt cause).getV r = s.getV r := rfl
@[simp] theorem State.halt_keyDown (cause : Fault) (k : RegIdx) : (s.halt cause).keyDown k = s.keyDown k := rfl
@[simp] theorem State.halt_readByte (cause : Fault) (a' : Nat) : (s.halt cause).readByte a' = s.readByte a' := rfl

/-! ### skipIf -/

@[simp] theorem State.skipIf_true : s.skipIf true = s.skip := rfl
@[simp] theorem State.skipIf_false : s.skipIf false = s := rfl

/-- A skip moves pc alone (40_cycle.md R72). -/
theorem State.skipIf_eq (c : Bool) : s.skipIf c = s.setPc (if c then s.pc + 2 else s.pc) := by
  cases c <;> rfl

/-! ### One register after a register write -/

@[simp] theorem State.getV_setV (x r : RegIdx) (b : Byte) :
    (s.setV x b).getV r = if r = x then b else s.getV r := by
  simp [State.getV, State.setV, Vector.getElem_set, Fin.ext_iff, eq_comm]

@[simp] theorem State.getV_setFlag (r : RegIdx) (b : Byte) :
    (s.setFlag b).getV r = if r = vf then b else s.getV r := State.getV_setV s vf r b

@[simp] theorem State.getV_loadRegsFrom (a : Nat) (x r : RegIdx) :
    (s.loadRegsFrom a x).getV r = if r ≤ x then s.readByte (a + r.val) else s.getV r := by
  simp [State.getV, State.loadRegsFrom]

/-- `V[0], .., V[x]`: x + 1 bytes (43_index_memory.md R105). -/
@[simp] theorem State.regsUpTo_length (x : RegIdx) : (s.regsUpTo x).length = x.val + 1 := by
  simp [State.regsUpTo]

/-- The `k`-th of them is `V[k]`. -/
theorem State.regsUpTo_getElem (x : RegIdx) (k : Nat) (h : k < (s.regsUpTo x).length) :
    (s.regsUpTo x)[k] = s.getV ⟨k, by have := x.isLt; simp at h; omega⟩ := by
  simp [State.regsUpTo, State.getV]

end Sys2Proof.Machine
end

