-- ==== Sys2Proof/Laws/Display.lean ====
section
/-! SUPPORT. What the framebuffer operations do to one pixel, and the closed form of a sprite draw. -/

namespace Sys2Proof.Machine

/-- Framebuffers with the same pixels are the same data. -/
theorem Gfx.ext_pixel {g h : Gfx} (e : ∀ r c, g.pixel r c = h.pixel r c) : g = h := by
  apply Vector.ext
  intro r hr
  apply Vector.ext
  intro c hc
  exact e ⟨r, hr⟩ ⟨c, hc⟩

@[simp] theorem Gfx.pixel_clear (r : Fin Config.height) (c : Fin Config.width) : Gfx.clear.pixel r c = false := by
  simp [Gfx.pixel, Gfx.clear]

/-- A flip changes its own pixel and no other. -/
theorem Gfx.pixel_flip (g : Gfx) (r r' : Fin Config.height) (c c' : Fin Config.width) :
    (g.flip r c).pixel r' c' = if r' = r ∧ c' = c then !g.pixel r c else g.pixel r' c' := by
  unfold Gfx.flip Gfx.pixel
  by_cases hr : r' = r
  · subst hr
    by_cases hc : c' = c
    · subst hc; simp
    · have : c.val ≠ c'.val := fun e => hc (Fin.ext e.symm)
      simp [hc, this]
  · have : r.val ≠ r'.val := fun e => hr (Fin.ext e.symm)
    simp [hr, this]

/-- The column offset of `c` from `ox`, mod WIDTH. -/
def columnOffset (ox : Nat) (c : Fin Config.width) : Nat := (c.val + 64 - ox % 64) % 64

/-- The row offset of `r` from `oy`, mod HEIGHT. -/
def rowOffset (oy : Nat) (r : Fin Config.height) : Nat := (r.val + 32 - oy % 32) % 32

theorem eq_wrapColumn_iff {ox k : Nat} {c : Fin Config.width} (hk : k < 64) :
    c = wrapColumn (ox + k) ↔ columnOffset ox c = k := by
  have hc : c.val < 64 := c.isLt
  simp only [wrapColumn, Fin.ext_iff, columnOffset, Config.width]
  omega

theorem eq_wrapRow_iff {oy : Nat} {r : Fin Config.height} : r = wrapRow oy ↔ rowOffset oy r = 0 := by
  have hr : r.val < 32 := r.isLt
  simp only [wrapRow, Fin.ext_iff, rowOffset, Config.height]
  omega

/-- One sprite row drawn up to column `k`: the pixels under its set bits flip, and the collision flag records whether one
of them was 1. -/
theorem blitRow_prefix (b : Byte) (r ox k : Nat) (hk : k ≤ 8) (p : Blit) :
    let q := (List.range k).foldl
      (fun q col => if spriteBit b col then blitPixel q (wrapRow r) (wrapColumn (ox + col)) else q) p
    (∀ r' c', q.1.pixel r' c' =
      (p.1.pixel r' c' ^^
        (decide (r' = wrapRow r) && decide (columnOffset ox c' < k) && spriteBit b (columnOffset ox c')))) ∧
    (q.2 = true ↔ p.2 = true ∨ ∃ c', columnOffset ox c' < k ∧ spriteBit b (columnOffset ox c') = true ∧
      p.1.pixel (wrapRow r) c' = true) := by
  induction k with
  | zero => simp
  | succ k ih =>
    obtain ⟨ihp, ihc⟩ := ih (by omega)
    rw [List.range_succ, List.foldl_append, List.foldl_cons, List.foldl_nil]
    generalize (List.range k).foldl
      (fun q col => if spriteBit b col then blitPixel q (wrapRow r) (wrapColumn (ox + col)) else q) p = q at ihp ihc
    have hoff : columnOffset ox (wrapColumn (ox + k)) = k := (eq_wrapColumn_iff (by omega)).mp rfl
    by_cases hb : spriteBit b k
    · simp only [hb, if_true]
      refine ⟨fun r' c' => ?_, ?_⟩
      · rw [blitPixel, Gfx.pixel_flip]
        by_cases hr : r' = wrapRow r
        · by_cases hc : c' = wrapColumn (ox + k)
          · subst hr hc; simp [ihp, hoff, hb]
          · have hne : columnOffset ox c' ≠ k := fun e => hc ((eq_wrapColumn_iff (by omega)).mpr e)
            have : (columnOffset ox c' < k + 1) = (columnOffset ox c' < k) := by apply propext; omega
            simp [hc, ihp, this]
        · simp [hr, ihp]
      · simp only [blitPixel, Bool.or_eq_true, ihc, ihp, hoff]
        simp only [Nat.lt_irrefl, decide_false, Bool.and_false, Bool.false_and, Bool.xor_false]
        constructor
        · rintro ((h | ⟨c', h1, h2, h3⟩) | h)
          · exact .inl h
          · exact .inr ⟨c', by omega, h2, h3⟩
          · exact .inr ⟨_, by rw [hoff]; omega, by rw [hoff]; exact hb, h⟩
        · rintro (h | ⟨c', h1, h2, h3⟩)
          · exact .inl (.inl h)
          · by_cases he : columnOffset ox c' = k
            · rw [← (eq_wrapColumn_iff (by omega)).mpr he]; exact .inr h3
            · exact .inl (.inr ⟨c', by omega, h2, h3⟩)
    · simp only [hb, if_false, Bool.false_eq_true]
      refine ⟨fun r' c' => ?_, ?_⟩
      · rw [ihp]
        by_cases he : columnOffset ox c' = k
        · simp [he, hb]
        · have : (columnOffset ox c' < k + 1) = (columnOffset ox c' < k) := by apply propext; omega
          simp [this]
      · rw [ihc]
        constructor
        · rintro (h | ⟨c', h1, h2, h3⟩)
          · exact .inl h
          · exact .inr ⟨c', by omega, h2, h3⟩
        · rintro (h | ⟨c', h1, h2, h3⟩)
          · exact .inl h
          · by_cases he : columnOffset ox c' = k
            · rw [he] at h2; exact absurd h2 hb
            · exact .inr ⟨c', by omega, h2, h3⟩

/-- One sprite row. -/
theorem blitRow_spec (b : Byte) (r ox : Nat) (p : Blit) :
    (∀ r' c', (blitRow b r ox p).1.pixel r' c' =
      (p.1.pixel r' c' ^^
        (decide (r' = wrapRow r) && decide (columnOffset ox c' < 8) && spriteBit b (columnOffset ox c')))) ∧
    ((blitRow b r ox p).2 = true ↔ p.2 = true ∨ ∃ c', columnOffset ox c' < 8 ∧
      spriteBit b (columnOffset ox c') = true ∧ p.1.pixel (wrapRow r) c' = true) :=
  blitRow_prefix b r ox 8 (Nat.le_refl 8) p

/-- Pixel (r, c) is under a set bit of the sprite rows `bs` placed at (oy, ox). -/
def rowsCover (bs : List Byte) (oy ox : Nat) (r : Fin Config.height) (c : Fin Config.width) : Bool :=
  match bs[rowOffset oy r]? with
  | some b => decide (columnOffset ox c < 8) && spriteBit b (columnOffset ox c)
  | none => false

theorem rowsCover_nil (oy ox : Nat) (r : Fin Config.height) (c : Fin Config.width) : rowsCover [] oy ox r c = false := rfl

theorem rowsCover_cons (b : Byte) (bs : List Byte) (oy ox : Nat) (r : Fin Config.height)
    (c : Fin Config.width) :
    rowsCover (b :: bs) oy ox r c =
      if r = wrapRow oy then decide (columnOffset ox c < 8) && spriteBit b (columnOffset ox c)
      else rowsCover bs (oy + 1) ox r c := by
  have hr : r.val < 32 := r.isLt
  by_cases h : r = wrapRow oy
  · simp only [h, if_true, rowsCover, eq_wrapRow_iff.mp rfl, List.getElem?_cons_zero]
  · have h0 : rowOffset oy r ≠ 0 := fun e => h (eq_wrapRow_iff.mpr e)
    have : rowOffset oy r = rowOffset (oy + 1) r + 1 := by simp only [rowOffset] at h0 ⊢; omega
    simp only [h, if_false, rowsCover, this, List.getElem?_cons_succ]

theorem rowsCover_first_row (bs : List Byte) (oy ox : Nat) (hl : bs.length < 32) (c : Fin Config.width) :
    rowsCover bs (oy + 1) ox (wrapRow oy) c = false := by
  have : rowOffset (oy + 1) (wrapRow oy) = 31 := by simp only [rowOffset, wrapRow, Config.height]; omega
  have hn : bs[31]? = none := by simp; omega
  simp [rowsCover, this, hn]

/-- The whole sprite, at most 32 rows: exactly the pixels under its set bits flip, and the collision flag says whether one
of them was 1 before the draw. -/
theorem blitRows_spec (bs : List Byte) (oy ox : Nat) (hl : bs.length ≤ 32) (p : Blit) :
    (∀ r c, (blitRows bs oy ox p).1.pixel r c = (p.1.pixel r c ^^ rowsCover bs oy ox r c)) ∧
    ((blitRows bs oy ox p).2 = true ↔
      p.2 = true ∨ ∃ r c, rowsCover bs oy ox r c = true ∧ p.1.pixel r c = true) := by
  induction bs generalizing oy p with
  | nil => simp [blitRows, rowsCover_nil]
  | cons b bs ih =>
    have hl' : bs.length < 32 := by simp at hl; omega
    obtain ⟨hp, hc⟩ := blitRow_spec b oy ox p
    obtain ⟨ihp, ihc⟩ := ih (oy + 1) (by omega) (blitRow b oy ox p)
    rw [blitRows]
    refine ⟨fun r c => ?_, ?_⟩
    · rw [ihp, hp, rowsCover_cons b bs oy ox]
      by_cases h : r = wrapRow oy
      · subst h; simp [rowsCover_first_row bs oy ox hl']
      · simp [h]
    · rw [ihc, hc]
      constructor
      · rintro ((h | ⟨c, h1, h2, h3⟩) | ⟨r, c, h1, h2⟩)
        · exact .inl h
        · exact .inr ⟨wrapRow oy, c, by rw [rowsCover_cons b bs oy ox]; simp [h1, h2], h3⟩
        · have hr : r ≠ wrapRow oy := fun e => by
            subst e; rw [rowsCover_first_row bs oy ox hl'] at h1; exact absurd h1 (by simp)
          refine .inr ⟨r, c, by rw [rowsCover_cons b bs oy ox]; simpa [hr] using h1, ?_⟩
          rw [hp] at h2; simpa [hr] using h2
      · rintro (h | ⟨r, c, h1, h2⟩)
        · exact .inl (.inl h)
        · rw [rowsCover_cons b bs oy ox] at h1
          by_cases hr : r = wrapRow oy
          · subst hr
            simp only [if_true, Bool.and_eq_true, decide_eq_true_eq] at h1
            exact .inl (.inr ⟨c, h1.1, h1.2, h2⟩)
          · refine .inr ⟨r, c, by simpa [hr] using h1, ?_⟩
            rw [hp]; simpa [hr] using h2

end Sys2Proof.Machine
end

