-- ==== Sys2Proof/Laws/Encoding.lean ====
section
/-! SUPPORT. The fields of a word built from its layout (30_encoding.md R55, R56). -/

namespace Sys2Proof

@[simp] theorem regOfNibble_nibbleOf (r : Fin 16) : regOfNibble (nibbleOf r) = r := by
  revert r; decide

@[simp] theorem nibbleOf_regOfNibble (b : BitVec 4) : nibbleOf (regOfNibble b) = b := by
  revert b; decide

theorem nibbleOf_toNat (r : Fin 16) : (nibbleOf r).toNat = r.val := by revert r; decide

theorem regOfNibble_inj {b c : BitVec 4} : regOfNibble b = regOfNibble c ↔ b = c := by
  revert b c; decide

/-! ### Layout NNN -/

@[simp] theorem fieldClass_formatNNN (c : BitVec 4) (nnn : Addr) : fieldClass (formatNNN c nnn) = c := by
  apply BitVec.eq_of_getLsbD_eq; intro i hi
  simp only [fieldClass, formatNNN, BitVec.getLsbD_extractLsb', BitVec.getLsbD_append]
  simp [hi]

@[simp] theorem fieldNNN_formatNNN (c : BitVec 4) (nnn : Addr) : fieldNNN (formatNNN c nnn) = nnn := by
  apply BitVec.eq_of_getLsbD_eq; intro i hi
  simp only [fieldNNN, formatNNN, BitVec.getLsbD_extractLsb', BitVec.getLsbD_append]
  simp [hi]

@[simp] theorem fieldKK_formatNNN (c : BitVec 4) (nnn : Addr) : fieldKK (formatNNN c nnn) = nnn.setWidth 8 := by
  apply BitVec.eq_of_getLsbD_eq; intro i hi
  simp only [fieldKK, formatNNN, BitVec.getLsbD_extractLsb', BitVec.getLsbD_append, BitVec.getLsbD_setWidth]
  have h : i < 12 := by omega
  simp [hi, h]

/-! ### Layout XKK -/

@[simp] theorem fieldClass_formatXKK (c : BitVec 4) (x : RegIdx) (kk : Byte) : fieldClass (formatXKK c x kk) = c := by
  apply BitVec.eq_of_getLsbD_eq; intro i hi
  simp only [fieldClass, formatXKK, BitVec.getLsbD_extractLsb', BitVec.getLsbD_append]
  rw [if_neg (by omega), if_neg (by omega), show 12 + i - 8 - 4 = i by omega]; simp [hi]

@[simp] theorem fieldX_formatXKK (c : BitVec 4) (x : RegIdx) (kk : Byte) : fieldX (formatXKK c x kk) = x := by
  have : (formatXKK c x kk).extractLsb' 8 4 = nibbleOf x := by
    apply BitVec.eq_of_getLsbD_eq; intro i hi
    simp only [formatXKK, BitVec.getLsbD_extractLsb', BitVec.getLsbD_append]
    simp [hi]
  rw [fieldX, this, regOfNibble_nibbleOf]

@[simp] theorem fieldKK_formatXKK (c : BitVec 4) (x : RegIdx) (kk : Byte) : fieldKK (formatXKK c x kk) = kk := by
  apply BitVec.eq_of_getLsbD_eq; intro i hi
  simp only [fieldKK, formatXKK, BitVec.getLsbD_extractLsb', BitVec.getLsbD_append]
  simp [hi]

@[simp] theorem fieldYBits_formatXKK (c : BitVec 4) (x : RegIdx) (kk : Byte) :
    fieldYBits (formatXKK c x kk) = kk.extractLsb' 4 4 := by
  apply BitVec.eq_of_getLsbD_eq; intro i hi
  simp only [fieldYBits, formatXKK, BitVec.getLsbD_extractLsb', BitVec.getLsbD_append]
  have h : 4 + i < 8 := by omega
  simp [hi, h]

@[simp] theorem fieldNBits_formatXKK (c : BitVec 4) (x : RegIdx) (kk : Byte) :
    fieldNBits (formatXKK c x kk) = kk.extractLsb' 0 4 := by
  apply BitVec.eq_of_getLsbD_eq; intro i hi
  simp only [fieldNBits, formatXKK, BitVec.getLsbD_extractLsb', BitVec.getLsbD_append]
  have h : i < 8 := by omega
  simp [hi, h]

/-! ### Layout XYN -/

@[simp] theorem fieldClass_formatXYN (c : BitVec 4) (x y n : Fin 16) : fieldClass (formatXYN c x y n) = c := by
  apply BitVec.eq_of_getLsbD_eq; intro i hi
  simp only [fieldClass, formatXYN, BitVec.getLsbD_extractLsb', BitVec.getLsbD_append]
  rw [if_neg (by omega), if_neg (by omega), if_neg (by omega), show 12 + i - 4 - 4 - 4 = i by omega]; simp [hi]

@[simp] theorem fieldX_formatXYN (c : BitVec 4) (x y n : Fin 16) : fieldX (formatXYN c x y n) = x := by
  have : (formatXYN c x y n).extractLsb' 8 4 = nibbleOf x := by
    apply BitVec.eq_of_getLsbD_eq; intro i hi
    simp only [formatXYN, BitVec.getLsbD_extractLsb', BitVec.getLsbD_append]
    rw [if_neg (by omega), if_neg (by omega), if_pos (by omega), show 8 + i - 4 - 4 = i by omega]; simp [hi]
  rw [fieldX, this, regOfNibble_nibbleOf]

@[simp] theorem fieldYBits_formatXYN (c : BitVec 4) (x y n : Fin 16) : fieldYBits (formatXYN c x y n) = nibbleOf y := by
  apply BitVec.eq_of_getLsbD_eq; intro i hi
  simp only [fieldYBits, formatXYN, BitVec.getLsbD_extractLsb', BitVec.getLsbD_append]
  simp [hi]

@[simp] theorem fieldY_formatXYN (c : BitVec 4) (x y n : Fin 16) : fieldY (formatXYN c x y n) = y := by
  rw [fieldY, fieldYBits_formatXYN, regOfNibble_nibbleOf]

@[simp] theorem fieldNBits_formatXYN (c : BitVec 4) (x y n : Fin 16) : fieldNBits (formatXYN c x y n) = nibbleOf n := by
  apply BitVec.eq_of_getLsbD_eq; intro i hi
  simp only [fieldNBits, formatXYN, BitVec.getLsbD_extractLsb', BitVec.getLsbD_append]
  simp [hi]

@[simp] theorem fieldN_formatXYN (c : BitVec 4) (x y n : Fin 16) : fieldN (formatXYN c x y n) = n := by
  rw [fieldN, fieldNBits_formatXYN, regOfNibble_nibbleOf]

/-! ### Byte order (20_memory.md R43) -/

@[simp] theorem wordOfBytes_highByte_lowByte (w : Word) : wordOfBytes (highByte w) (lowByte w) = w := by
  apply BitVec.eq_of_getLsbD_eq; intro i hi
  simp only [wordOfBytes, highByte, lowByte, BitVec.getLsbD_extractLsb', BitVec.getLsbD_append]
  by_cases h : i < 8
  · simp [h]
  · have e : 8 + (i - 8) = i := by omega
    have l : i - 8 < 8 := by omega
    simp [h, e, l]

end Sys2Proof
end

