-- ==== Sys2Proof/Laws/Ops.lean ====
section
/-! SUPPORT. One lemma per shared operation that says everything it can answer. -/

namespace Sys2Proof.Machine

variable (s : State)

/-! ### The stack (10_state.md R23, R24) -/

/-- A push succeeds exactly when sp < 16: the entry goes to `stack[sp]` and sp rises by one. -/
theorem State.push_eq_some {a : Word} {t : State} :
    s.push a = some t ↔ ∃ h : s.sp.val < 16,
      t = { s with stack := s.stack.set s.sp.val a h, sp := ⟨s.sp.val + 1, by omega⟩ } := by
  unfold State.push
  split
  · next h => simp [h, eq_comm]
  · next h => simp [h]

theorem State.push_eq_none {a : Word} : s.push a = none ↔ s.sp.val = 16 := by
  have := s.sp.isLt
  unfold State.push
  split
  · simp; omega
  · simp; omega

/-- A pop succeeds exactly when sp > 0: it yields `stack[sp - 1]` and lowers sp by one, and no entry changes. -/
theorem State.pop_eq_some {a : Word} {t : State} :
    s.pop = some (a, t) ↔ ∃ h : 0 < s.sp.val,
      a = s.stack[s.sp.val - 1]'(by have := s.sp.isLt; omega) ∧
      t = { s with sp := ⟨s.sp.val - 1, by have := s.sp.isLt; omega⟩ } := by
  unfold State.pop
  split
  · next h => simp [h, eq_comm]
  · next h => simp [h]

theorem State.pop_eq_none : s.pop = none ↔ s.sp.val = 0 := by
  unfold State.pop
  split
  · simp; omega
  · simp; omega

/-! ### The range check and the fault -/

theorem raise_eq (cause : Fault) : raise cause = .fault cause := rfl

/-- The check passes for a highest address of at most 0xFFF (20_memory.md R44). -/
theorem checkRange_ok {last : Nat} (go : Result) (h : last ≤ 0xFFF) : checkRange last go = go := by
  simp [checkRange, lastAddress]; omega

theorem checkRange_fault {last : Nat} (go : Result) (h : 0xFFF < last) :
    checkRange last go = .fault (.memoryOutOfRange last) := by
  simp [checkRange, lastAddress, raise]; omega

/-- A checked access that answers a next state passed the check. -/
theorem checkRange_eq_next {last : Nat} {go : Result} {t : State} :
    checkRange last go = .next t ↔ last ≤ 0xFFF ∧ go = .next t := by
  unfold checkRange lastAddress raise
  split
  · simp; omega
  · simp; omega

/-! ### Keys -/

/-- A byte names a key exactly when it is at most 0xF (44 R110). -/
theorem keyOfByte_eq_some {b : Byte} {k : RegIdx} : keyOfByte b = some k ↔ b.toNat = k.val := by
  have := k.isLt
  unfold keyOfByte
  split
  · simp [Fin.ext_iff]
  · simp; omega

theorem keyOfByte_eq_none {b : Byte} : keyOfByte b = none ↔ 0xF < b.toNat := by
  unfold keyOfByte
  split
  · simp; omega
  · simp; omega

/-- The scan finds `k` exactly when `k` is pressed and no lower key is (44 R113). -/
theorem State.lowestKey_eq_some {k : RegIdx} :
    s.lowestKey = some k ↔ s.keyDown k = true ∧ ∀ j < k, s.keyDown j = false := by
  unfold State.lowestKey
  rw [List.find?_eq_some_iff_getElem]
  constructor
  · rintro ⟨hk, n, hn, he, hlt⟩
    have hn' : n < 16 := by simpa using hn
    have hkn : k.val = n := by rw [← he]; simp
    refine ⟨hk, fun j hj => ?_⟩
    have := hlt j.val (by rw [← hkn]; exact hj)
    simpa using this
  · rintro ⟨hk, hlt⟩
    refine ⟨hk, k.val, by simp, by simp, fun j hj => ?_⟩
    have := hlt ⟨j, by have := k.isLt; omega⟩ (by simpa [Fin.lt_def] using hj)
    simpa using this

theorem State.lowestKey_eq_none : s.lowestKey = none ↔ ∀ k, s.keyDown k = false := by
  simp [State.lowestKey]

/-! ### The fetch -/

theorem State.fetchable_iff : s.fetchable = true ↔ s.pc.toNat + 1 ≤ 0xFFF := by
  simp [State.fetchable, lastAddress]

theorem State.not_fetchable_iff : s.fetchable = false ↔ 0xFFF ≤ s.pc.toNat := by
  simp [State.fetchable, lastAddress]

end Sys2Proof.Machine
end

