-- ==== Sys2Proof/Laws/Frame.lean ====
section
/-! SUPPORT. The frame of each update of the state (Safety.ChangesOnly), said once. -/

namespace Sys2Proof.Machine

/-- A frame may be widened. -/
theorem ChangesOnly.mono {s t : State} {p q : Part → Prop} (h : ChangesOnly s t p) (hpq : ∀ x, p x → q x) :
    ChangesOnly s t q := fun x hx => h x fun hp => hx (hpq x hp)

/-- An update of nothing changes nothing. -/
theorem ChangesOnly.refl (s : State) (p : Part → Prop) : ChangesOnly s s p := by
  intro x _; cases x <;> rfl

/-- Unchanged twice is unchanged. -/
theorem Unchanged.trans {s t u : State} {x : Part} (h : Unchanged s t x) (k : Unchanged t u x) : Unchanged s u x := by
  cases x <;> exact Eq.trans k h

/-- Frames compose. -/
theorem ChangesOnly.trans {s t u : State} {p q : Part → Prop} (h : ChangesOnly s t p) (k : ChangesOnly t u q) :
    ChangesOnly s u (fun x => p x ∨ q x) :=
  fun x hx => (h x fun hp => hx (.inl hp)).trans (k x fun hq => hx (.inr hq))

variable (s : State)

theorem changesOnly_setV (x : RegIdx) (b : Byte) : ChangesOnly s (s.setV x b) (· = .v x) := by
  intro p hp
  cases p with
  | v r =>
    have : r ≠ x := fun h => hp (h ▸ rfl)
    simp [Unchanged, this]
  | _ => rfl

theorem changesOnly_setFlag (b : Byte) : ChangesOnly s (s.setFlag b) (· = .v vf) := changesOnly_setV s vf b

theorem changesOnly_setI (a : Word) : ChangesOnly s (s.setI a) (· = .i) := by
  intro p hp; cases p <;> first | rfl | exact absurd rfl hp

theorem changesOnly_setPc (a : Word) : ChangesOnly s (s.setPc a) (· = .pc) := by
  intro p hp; cases p <;> first | rfl | exact absurd rfl hp

theorem changesOnly_skipIf (c : Bool) : ChangesOnly s (s.skipIf c) (· = .pc) := by
  rw [State.skipIf_eq]; exact changesOnly_setPc s _

theorem changesOnly_rewind : ChangesOnly s s.rewind (· = .pc) := changesOnly_setPc s _

theorem changesOnly_setDt (b : Byte) : ChangesOnly s (s.setDt b) (· = .dt) := by
  intro p hp; cases p <;> first | rfl | exact absurd rfl hp

theorem changesOnly_setSt (b : Byte) : ChangesOnly s (s.setSt b) (· = .st) := by
  intro p hp; cases p <;> first | rfl | exact absurd rfl hp

theorem changesOnly_draw : ChangesOnly s s.draw.2 (· = .draws) := by
  intro p hp; cases p <;> first | rfl | exact absurd rfl hp

theorem changesOnly_halt (c : Fault) : ChangesOnly s (s.halt c) (· = .run) := by
  intro p hp; cases p <;> first | rfl | exact absurd rfl hp

theorem changesOnly_setGfx (g : Gfx) :
    ChangesOnly s (s.setGfx g) (fun p => p = .redraw ∨ ∃ r c, p = .pixel r c) := by
  intro p hp
  cases p with
  | pixel r c => exact absurd (.inr ⟨r, c, rfl⟩) hp
  | redraw => exact absurd (.inl rfl) hp
  | _ => rfl

theorem changesOnly_fetched :
    ChangesOnly s s.fetched (· ∈ [Part.opcode, .pc, .redraw, .loadOpen]) := by
  intro p hp; cases p <;> first | rfl | exact absurd (by simp) hp

/-- A store changes the bytes it stores and nothing else. -/
theorem changesOnly_storeBytes (a : Nat) (ds : List Byte) :
    ChangesOnly s (s.storeBytes a ds) (fun p => ∃ b, (a ≤ b ∧ b < a + ds.length) ∧ p = .byte b) := by
  intro p hp
  cases p with
  | byte b =>
    have hb : ¬ (a ≤ b ∧ b - a < ds.length) := fun h => hp ⟨b, ⟨h.1, by omega⟩, rfl⟩
    simp only [Unchanged, State.readByte, State.storeBytes_mem, Memory.read_writeBytes, dif_neg hb]
  | _ => rfl

theorem changesOnly_loadRegsFrom (a : Nat) (x : RegIdx) :
    ChangesOnly s (s.loadRegsFrom a x) (fun p => ∃ r, r ≤ x ∧ p = .v r) := by
  intro p hp
  cases p with
  | v r =>
    have : ¬ r ≤ x := fun h => hp ⟨r, h, rfl⟩
    simp [Unchanged, this]
  | _ => simp [Unchanged]

/-- A push changes the entry at sp and sp alone. -/
theorem changesOnly_push {a : Word} {t : State} (h : s.push a = some t) :
    ChangesOnly s t (fun p => p = .sp ∨ ∃ j : Fin 16, j.val = s.sp.val ∧ p = .stack j) := by
  obtain ⟨hs, rfl⟩ := s.push_eq_some.mp h
  intro p hp
  cases p with
  | sp => exact absurd (.inl rfl) hp
  | stack j =>
    have : s.sp.val ≠ j.val := fun e => hp (.inr ⟨j, e.symm, rfl⟩)
    show (s.stack.set s.sp.val a hs)[j.val] = s.stack[j.val]
    rw [Vector.getElem_set_ne hs j.isLt this]
  | _ => rfl

/-- A pop changes sp alone: the entry keeps its value (10_state.md R24). -/
theorem changesOnly_pop {a : Word} {t : State} (h : s.pop = some (a, t)) : ChangesOnly s t (· = .sp) := by
  obtain ⟨hs, -, rfl⟩ := s.pop_eq_some.mp h
  intro p hp; cases p <;> first | rfl | exact absurd rfl hp

end Sys2Proof.Machine
end

