-- ==== Sys2Proof/Laws/Step.lean ====
section
/-! SUPPORT. What a step can be, said once; the host operation `step`; and that the word placed at pc is the one fetched. -/

namespace Sys2Proof.Machine

variable (s : State)

theorem step_halted {cause : Fault} (h : s.run = .halted cause) : Sys2Proof.Machine.step s = .fault cause := by
  simp [Sys2Proof.Machine.step, h, raise]

theorem step_fetch_fault (h : s.run = .running) (hp : s.fetchable = false) :
    Sys2Proof.Machine.step s = .fault (.fetchOutOfRange s.pc) := by
  simp [Sys2Proof.Machine.step, h, hp, raise]

theorem step_running (h : s.run = .running) (hp : s.fetchable = true) :
    Sys2Proof.Machine.step s = executeWord s.fetchWord s.fetched := by
  simp [Sys2Proof.Machine.step, h, hp]

theorem executeWord_ok {w : Word} {ins : Instr} (h : decode w = .ok ins) : executeWord w s = exec ins s := by
  simp [executeWord, h]

theorem executeWord_undefined {w : Word} {e : DecodeReject} (h : decode w = .error e) : executeWord w s = .next s := by
  simp [executeWord, h, noOperation]

/-- A step that answers a next state ran from a Running state with both bytes inside memory: it executed an instruction,
or it was the no-op of an UNDEFINED word (40_cycle.md R66, R70). -/
theorem step_cases {t : State} (h : Sys2Proof.Machine.step s = .next t) :
    s.run = .running ∧ s.pc.toNat + 1 ≤ 0xFFF ∧
      ((∃ ins, decode s.fetchWord = .ok ins ∧ exec ins s.fetched = .next t) ∨
       (∃ e, decode s.fetchWord = .error e ∧ t = s.fetched)) := by
  cases hr : s.run with
  | halted c => rw [step_halted s hr] at h; cases h
  | running =>
    cases hf : s.fetchable with
    | false => rw [step_fetch_fault s hr hf] at h; cases h
    | true =>
      refine ⟨rfl, s.fetchable_iff.mp hf, ?_⟩
      rw [step_running s hr hf] at h
      cases hd : decode s.fetchWord with
      | ok ins => exact .inl ⟨ins, rfl, by rwa [executeWord_ok _ hd] at h⟩
      | error e =>
        rw [executeWord_undefined _ hd] at h
        exact .inr ⟨e, rfl, (by cases h; rfl)⟩

/-- A step that faults was Halted with that cause, could not fetch, or ran an instruction that raised it. -/
theorem step_fault_cases {cause : Fault} (h : Sys2Proof.Machine.step s = .fault cause) :
    s.run = .halted cause ∨
    (s.run = .running ∧ 0xFFF ≤ s.pc.toNat ∧ cause = .fetchOutOfRange s.pc) ∨
    (s.run = .running ∧ s.pc.toNat < 0xFFF ∧
      ∃ ins, decode s.fetchWord = .ok ins ∧ exec ins s.fetched = .fault cause) := by
  cases hr : s.run with
  | halted c => rw [step_halted s hr] at h; cases h; exact .inl rfl
  | running =>
    cases hf : s.fetchable with
    | false =>
      rw [step_fetch_fault s hr hf] at h; cases h
      exact .inr (.inl ⟨rfl, s.not_fetchable_iff.mp hf, rfl⟩)
    | true =>
      have hp := s.fetchable_iff.mp hf
      rw [step_running s hr hf] at h
      cases hd : decode s.fetchWord with
      | ok ins => exact .inr (.inr ⟨rfl, by omega, ins, rfl, by rwa [executeWord_ok _ hd] at h⟩)
      | error e => rw [executeWord_undefined _ hd] at h; cases h

theorem stepBlock_next {t : State} (h : Sys2Proof.Machine.step s = .next t) : s.stepBlock = (t, .stepped t.redraw) := by
  simp [State.stepBlock, h]

theorem stepBlock_fault {cause : Fault} (h : Sys2Proof.Machine.step s = .fault cause) :
    s.stepBlock = (s.halt cause, .failed cause) := by
  simp [State.stepBlock, h]

/-- In the Halted state the block does not move (60_exceptions.md R118). -/
theorem stepBlock_halted {cause : Fault} (h : s.run = .halted cause) : s.stepBlock = (s, .failed cause) := by
  rw [stepBlock_fault s (step_halted s h), State.halt, ← h]

/-- The word that `withFetchWord` stores at pc is the word the next step fetches. -/
theorem fetchWord_withFetchWord (nbits w : Nat) (h : s.fetchable = true) :
    (s.withFetchWord nbits w).fetchWord = tableWord nbits w := by
  simp [State.withFetchWord, h, State.fetchWord, State.readByte, Memory.read_writeBytes]

end Sys2Proof.Machine
end

