-- ==== Sys2Proof/Laws/HostOps.lean ====
section
/-! SUPPORT. What each host operation answers, said once (00_scope.md R6). -/

namespace Sys2Proof.Machine

variable (s : State)

/-! ### tick (60_exceptions.md R122) -/

/-- A decayed timer: one less, and 0 stays 0. -/
theorem decay_toNat (b : Byte) : (decay b).toNat = b.toNat - 1 := by
  unfold decay
  split
  · bv_omega
  · omega

theorem transact_tick_running (h : s.run = .running) :
    transact .tick s = ((s.setDt (decay s.dt)).setSt (decay s.st), .ticked (decide (0 < s.st.toNat))) := by
  simp [transact, State.tickBlock, h]

theorem transact_tick_halted {cause : Fault} (h : s.run = .halted cause) : transact .tick s = (s, .ticked false) := by
  simp [transact, State.tickBlock, h]

/-! ### load (70_reset_and_hazards.md R133, R134) -/

theorem mayLoad_iff : s.mayLoad = true ↔ s.loadOpen = true ∧ s.run = .running := by simp [State.mayLoad]

theorem transact_load_refused (image : Option (List Byte)) (h : s.mayLoad = false) :
    transact (.load image) s = (s, .refused .loadNotOpen) := by
  simp [transact, State.loadBlock, h]

theorem transact_load_unreadable (h : s.mayLoad = true) : transact (.load none) s = (s, .failed .loadError) := by
  simp [transact, State.loadBlock, h]

theorem transact_load_too_long {bytes : List Byte} (h : s.mayLoad = true) (hl : 3584 < bytes.length) :
    transact (.load (some bytes)) s = (s, .failed .loadError) := by
  have hl : bytes.length > maxImage := hl
  simp [transact, State.loadBlock, h, hl]

theorem transact_load_done {bytes : List Byte} (h : s.mayLoad = true) (hl : bytes.length ≤ 3584) :
    transact (.load (some bytes)) s = ({ s.storeBytes programBase bytes with loadOpen := false }, .done) := by
  have hl : ¬ bytes.length > maxImage := by simpa [maxImage] using hl
  simp only [transact, State.loadBlock, h, if_true, hl, if_false]

/-! ### set_key (60_exceptions.md R125) -/

theorem transact_setKey_done (k : RegIdx) (pressed : Bool) :
    transact (.setKey k.val pressed) s = ({ s with key := s.key.set k.val pressed k.isLt }, .done) := by
  simp [transact, State.setKeyBlock, k.isLt]

theorem transact_setKey_refused {k : Nat} (pressed : Bool) (h : 16 ≤ k) :
    transact (.setKey k pressed) s = (s, .refused (.keySymbolOutOfRange k)) := by
  simp [transact, State.setKeyBlock]
  omega

/-! ### step and schedules -/

theorem transact_step : transact .step s = s.stepBlock := rfl

theorem transactAll_cons (op : HostOp) (ops : List HostOp) :
    transactAll (op :: ops) s =
      ((transactAll ops (transact op s).1).1, (transact op s).2 :: (transactAll ops (transact op s).1).2) := rfl

/-- A predicate that every operation keeps is kept by every schedule. -/
theorem transactAll_induct (P : State → Prop) (hop : ∀ op s, P s → P (transact op s).1) (ops : List HostOp)
    (h : P s) : P (transactAll ops s).1 := by
  induction ops generalizing s with
  | nil => exact h
  | cons op ops ih => exact ih _ (hop op s h)

end Sys2Proof.Machine
end

