-- ==== Sys2Proof/Laws/Words.lean ====
section
/-! SUPPORT. The words the statements write digit by digit are the words of the layouts. -/

namespace Sys2Proof.Machine

/-- An append as a sum: the high part times the weight of the low part, plus the low part. -/
theorem toNat_append_eq {v w : Nat} (a : BitVec v) (b : BitVec w) : (a ++ b).toNat = a.toNat * 2 ^ w + b.toNat := by
  rw [BitVec.toNat_append, ← Nat.shiftLeft_add_eq_or_of_lt b.isLt, Nat.shiftLeft_eq]

theorem wordNNN_eq (c : BitVec 4) (nnn : Addr) : wordNNN c.toNat nnn.toNat = formatNNN c nnn := by
  apply BitVec.eq_of_toNat_eq
  have hc := c.isLt
  have hn := nnn.isLt
  rw [formatNNN, toNat_append_eq, wordNNN, BitVec.toNat_ofNat]
  omega

theorem wordXKK_eq (c : BitVec 4) (x : RegIdx) (kk : Byte) : wordXKK c.toNat x.val kk.toNat = formatXKK c x kk := by
  apply BitVec.eq_of_toNat_eq
  have hc := c.isLt
  have hk := kk.isLt
  have hx := x.isLt
  rw [formatXKK, toNat_append_eq, toNat_append_eq, nibbleOf_toNat, wordXKK, BitVec.toNat_ofNat]
  omega

theorem wordXYN_eq (c : BitVec 4) (x y n : Fin 16) : wordXYN c.toNat x.val y.val n.val = formatXYN c x y n := by
  apply BitVec.eq_of_toNat_eq
  have hc := c.isLt
  have hx := x.isLt
  have hy := y.isLt
  have hn := n.isLt
  rw [formatXYN, toNat_append_eq, toNat_append_eq, toNat_append_eq, nibbleOf_toNat, nibbleOf_toNat, nibbleOf_toNat,
    wordXYN, BitVec.toNat_ofNat]
  omega

/-! ### The masks of opcode_table.json -/

theorem formatNNN_and_F000 (c : BitVec 4) (nnn : Addr) : formatNNN c nnn &&& 0xF000#16 = formatNNN c 0 := by
  apply BitVec.eq_of_getLsbD_eq; intro i hi
  simp only [formatNNN, BitVec.getLsbD_and, BitVec.getLsbD_append]
  interval_cases i <;> simp

theorem formatXKK_and_F000 (c : BitVec 4) (x : RegIdx) (kk : Byte) :
    formatXKK c x kk &&& 0xF000#16 = formatNNN c 0 := by
  apply BitVec.eq_of_getLsbD_eq; intro i hi
  simp only [formatXKK, formatNNN, BitVec.getLsbD_and, BitVec.getLsbD_append]
  interval_cases i <;> simp

theorem formatXYN_and_F000 (c : BitVec 4) (x y n : Fin 16) : formatXYN c x y n &&& 0xF000#16 = formatNNN c 0 := by
  apply BitVec.eq_of_getLsbD_eq; intro i hi
  simp only [formatXYN, formatNNN, BitVec.getLsbD_and, BitVec.getLsbD_append]
  interval_cases i <;> simp

theorem formatXKK_and_F0FF (c : BitVec 4) (x : RegIdx) (kk : Byte) :
    formatXKK c x kk &&& 0xF0FF#16 = formatXKK c 0 kk := by
  apply BitVec.eq_of_getLsbD_eq; intro i hi
  simp only [formatXKK, BitVec.getLsbD_and, BitVec.getLsbD_append]
  interval_cases i <;> simp [nibbleOf]

theorem formatXKK_and_F0F0 (c : BitVec 4) (x : RegIdx) (kk : Byte) :
    formatXKK c x kk &&& 0xF0F0#16 = formatXKK c 0 (kk &&& 0xF0#8) := by
  apply BitVec.eq_of_getLsbD_eq; intro i hi
  simp only [formatXKK, BitVec.getLsbD_and, BitVec.getLsbD_append]
  interval_cases i <;> simp [nibbleOf]

theorem formatXYN_and_F00F (c : BitVec 4) (x y n : Fin 16) :
    formatXYN c x y n &&& 0xF00F#16 = formatXYN c 0 0 n := by
  apply BitVec.eq_of_getLsbD_eq; intro i hi
  simp only [formatXYN, BitVec.getLsbD_and, BitVec.getLsbD_append]
  interval_cases i <;> simp [nibbleOf]

/-- The fetched word as a number: big-endian (20_memory.md R43). -/
theorem wordOfBytes_toNat (hi lo : Byte) : (wordOfBytes hi lo).toNat = hi.toNat * 256 + lo.toNat := by
  rw [wordOfBytes, toNat_append_eq]; rfl

/-- Every word is the word of its class and fields, in the layout XYN. -/
theorem word_eq_formatXYN (w : Word) : w = formatXYN (fieldClass w) (fieldX w) (fieldY w) (fieldN w) := by
  apply BitVec.eq_of_toNat_eq
  have hw := w.isLt
  rw [formatXYN, toNat_append_eq, toNat_append_eq, toNat_append_eq, nibbleOf_toNat, nibbleOf_toNat, nibbleOf_toNat]
  simp only [fieldClass, fieldX, fieldY, fieldYBits, fieldN, fieldNBits, regOfNibble, BitVec.extractLsb'_toNat,
    Nat.shiftRight_eq_div_pow]
  omega

end Sys2Proof.Machine
end

