-- ==== Sys2Proof/Laws/PerInstr.lean ====
section
/-! SUPPORT. Per instruction: the encoded word carries the bits that its row of opcode_table.json fixes (30 R58). -/

namespace Sys2Proof.Laws

open Sys2Proof.Machine

/-- Under its row's mask the encoded word has the row's bits. -/
def RowBits.Statement (ins : Instr) : Prop := encode ins &&& ins.row.mask = ins.row.bits

theorem RowBits.cls : RowBits.Statement (.cls) :=
  (formatXKK_and_F0FF ..).trans rfl
theorem RowBits.ret : RowBits.Statement (.ret) :=
  (formatXKK_and_F0FF ..).trans rfl
theorem RowBits.sys (nnn : Addr) : RowBits.Statement (.sys nnn) :=
  (formatNNN_and_F000 ..).trans rfl
theorem RowBits.jp (nnn : Addr) : RowBits.Statement (.jp nnn) :=
  (formatNNN_and_F000 ..).trans rfl
theorem RowBits.call (nnn : Addr) : RowBits.Statement (.call nnn) :=
  (formatNNN_and_F000 ..).trans rfl
theorem RowBits.seImm (x : RegIdx) (kk : Byte) : RowBits.Statement (.seImm x kk) :=
  (formatXKK_and_F000 ..).trans rfl
theorem RowBits.sneImm (x : RegIdx) (kk : Byte) : RowBits.Statement (.sneImm x kk) :=
  (formatXKK_and_F000 ..).trans rfl
theorem RowBits.seReg (x y : RegIdx) : RowBits.Statement (.seReg x y) :=
  (formatXYN_and_F000 ..).trans rfl
theorem RowBits.ldImm (x : RegIdx) (kk : Byte) : RowBits.Statement (.ldImm x kk) :=
  (formatXKK_and_F000 ..).trans rfl
theorem RowBits.addImm (x : RegIdx) (kk : Byte) : RowBits.Statement (.addImm x kk) :=
  (formatXKK_and_F000 ..).trans rfl
theorem RowBits.ldReg (x y : RegIdx) : RowBits.Statement (.ldReg x y) :=
  (formatXYN_and_F00F ..).trans rfl
theorem RowBits.orReg (x y : RegIdx) : RowBits.Statement (.orReg x y) :=
  (formatXYN_and_F00F ..).trans rfl
theorem RowBits.andReg (x y : RegIdx) : RowBits.Statement (.andReg x y) :=
  (formatXYN_and_F00F ..).trans rfl
theorem RowBits.xorReg (x y : RegIdx) : RowBits.Statement (.xorReg x y) :=
  (formatXYN_and_F00F ..).trans rfl
theorem RowBits.addReg (x y : RegIdx) : RowBits.Statement (.addReg x y) :=
  (formatXYN_and_F00F ..).trans rfl
theorem RowBits.sub (x y : RegIdx) : RowBits.Statement (.sub x y) :=
  (formatXYN_and_F00F ..).trans rfl
theorem RowBits.shr (x : RegIdx) : RowBits.Statement (.shr x) :=
  (formatXYN_and_F00F ..).trans rfl
theorem RowBits.subn (x y : RegIdx) : RowBits.Statement (.subn x y) :=
  (formatXYN_and_F00F ..).trans rfl
theorem RowBits.shl (x : RegIdx) : RowBits.Statement (.shl x) :=
  (formatXYN_and_F00F ..).trans rfl
theorem RowBits.sneReg (x y : RegIdx) : RowBits.Statement (.sneReg x y) :=
  (formatXYN_and_F000 ..).trans rfl
theorem RowBits.ldI (nnn : Addr) : RowBits.Statement (.ldI nnn) :=
  (formatNNN_and_F000 ..).trans rfl
theorem RowBits.jpV0 (nnn : Addr) : RowBits.Statement (.jpV0 nnn) :=
  (formatNNN_and_F000 ..).trans rfl
theorem RowBits.rnd (x : RegIdx) (kk : Byte) : RowBits.Statement (.rnd x kk) :=
  (formatXKK_and_F000 ..).trans rfl
theorem RowBits.drw (x y : RegIdx) (n : Fin 16) : RowBits.Statement (.drw x y n) :=
  (formatXYN_and_F000 ..).trans rfl
theorem RowBits.skp (x : RegIdx) : RowBits.Statement (.skp x) :=
  (formatXKK_and_F0FF ..).trans rfl
theorem RowBits.sknp (x : RegIdx) : RowBits.Statement (.sknp x) :=
  (formatXKK_and_F0FF ..).trans rfl
theorem RowBits.ldVxDt (x : RegIdx) : RowBits.Statement (.ldVxDt x) :=
  (formatXKK_and_F0FF ..).trans rfl
theorem RowBits.ldVxK (x : RegIdx) : RowBits.Statement (.ldVxK x) :=
  (formatXKK_and_F0FF ..).trans rfl
theorem RowBits.ldDtVx (x : RegIdx) : RowBits.Statement (.ldDtVx x) :=
  (formatXKK_and_F0FF ..).trans rfl
theorem RowBits.ldStVx (x : RegIdx) : RowBits.Statement (.ldStVx x) :=
  (formatXKK_and_F0FF ..).trans rfl
theorem RowBits.addI (x : RegIdx) : RowBits.Statement (.addI x) :=
  (formatXKK_and_F0FF ..).trans rfl
theorem RowBits.ldF (x : RegIdx) : RowBits.Statement (.ldF x) :=
  (formatXKK_and_F0F0 ..).trans rfl
theorem RowBits.ldB (x : RegIdx) : RowBits.Statement (.ldB x) :=
  (formatXKK_and_F0F0 ..).trans rfl
theorem RowBits.stRegs (x : RegIdx) : RowBits.Statement (.stRegs x) :=
  (formatXKK_and_F0F0 ..).trans rfl
theorem RowBits.ldRegs (x : RegIdx) : RowBits.Statement (.ldRegs x) :=
  (formatXKK_and_F0F0 ..).trans rfl

end Sys2Proof.Laws
end

