-- ==== Sys2Proof/Tests/Slice0.lean ====
section
/-! SUPPORT. Tests: the well-formedness check, decoding of words written out from 30_encoding.md R58, one step or one host
operation with the result that 95_test_vectors.md gives, and a witness for every statement with hypotheses. -/

namespace Sys2Proof.Tests

open Sys2Proof Sys2Proof.Machine

/-- The outcome is a next state with the given property. -/
def nextHolds (o : Result) (p : State → Bool) : Bool :=
  match o with
  | .next t => p t
  | .fault _ => false
  | .refused _ => false

/-- The outcome is the given fault. -/
def faultIs (o : Result) (c : Fault) : Bool :=
  match o with
  | .next _ => false
  | .fault d => d == c
  | .refused _ => false

/-- The state after reset with registers set. -/
def start (regs : List (RegIdx × Byte)) : State := regs.foldl (fun s p => s.setV p.1 p.2) State.reset

/-- One step of the word `w` placed at pc. -/
def stepOf (w : Nat) (s : State) : Result := Sys2Proof.Machine.step (s.withFetchWord 16 w)

/-- A key pressed. -/
def press (k : Nat) (s : State) : State := (transact (.setKey k true) s).1

/-! ## Well-formedness -/

theorem test_sys_of_cls_word_is_ill_formed : (Instr.sys 0x1E0#12).wellFormed = false := by decide

theorem test_sys_of_ret_word_is_ill_formed : (Instr.sys 0x0EE#12).wellFormed = false := by decide

theorem test_sys_is_well_formed : (Instr.sys 0x123#12).wellFormed = true := by decide

/-! ## Decoding: one word for every row of R58 -/

theorem test_decode_flow :
    decode 0x00EE#16 = .ok .ret ∧ decode 0x05EE#16 = .ok .ret ∧ decode 0x0123#16 = .ok (.sys 0x123#12) ∧
    decode 0x1234#16 = .ok (.jp 0x234#12) ∧ decode 0x2300#16 = .ok (.call 0x300#12) ∧
    decode 0x3310#16 = .ok (.seImm 3 0x10#8) ∧ decode 0x4310#16 = .ok (.sneImm 3 0x10#8) ∧
    decode 0x5127#16 = .ok (.seReg 1 2) ∧ decode 0x9120#16 = .ok (.sneReg 1 2) ∧
    decode 0xB300#16 = .ok (.jpV0 0x300#12) := by decide

theorem test_decode_alu :
    decode 0x6A05#16 = .ok (.ldImm 10 0x05#8) ∧ decode 0x7A10#16 = .ok (.addImm 10 0x10#8) ∧
    decode 0x8120#16 = .ok (.ldReg 1 2) ∧ decode 0x8121#16 = .ok (.orReg 1 2) ∧ decode 0x8122#16 = .ok (.andReg 1 2) ∧
    decode 0x8123#16 = .ok (.xorReg 1 2) ∧ decode 0x8124#16 = .ok (.addReg 1 2) ∧ decode 0x8125#16 = .ok (.sub 1 2) ∧
    decode 0x81F6#16 = .ok (.shr 1) ∧ decode 0x8127#16 = .ok (.subn 1 2) ∧ decode 0x810E#16 = .ok (.shl 1) ∧
    decode 0xC30F#16 = .ok (.rnd 3 0x0F#8) := by decide

theorem test_decode_index :
    decode 0xA2F0#16 = .ok (.ldI 0x2F0#12) ∧ decode 0xF21E#16 = .ok (.addI 2) ∧ decode 0xF421#16 = .ok (.ldF 4) ∧
    decode 0xF533#16 = .ok (.ldB 5) ∧ decode 0xF255#16 = .ok (.stRegs 2) ∧ decode 0xF265#16 = .ok (.ldRegs 2) := by decide

theorem test_decode_display_keys_timers :
    decode 0x00E0#16 = .ok .cls ∧ decode 0x01E0#16 = .ok .cls ∧ decode 0xD125#16 = .ok (.drw 1 2 5) ∧
    decode 0xE19E#16 = .ok (.skp 1) ∧ decode 0xE1A1#16 = .ok (.sknp 1) ∧ decode 0xF307#16 = .ok (.ldVxDt 3) ∧
    decode 0xF50A#16 = .ok (.ldVxK 5) ∧ decode 0xF315#16 = .ok (.ldDtVx 3) ∧ decode 0xF318#16 = .ok (.ldStVx 3) := by
  decide

theorem test_decode_undefined :
    decode 0x8128#16 = .error (.undefinedClass8 8#4) ∧ decode 0x812D#16 = .error (.undefinedClass8 0xD#4) ∧
    decode 0x812F#16 = .error (.undefinedClass8 0xF#4) ∧ decode 0xE1FF#16 = .error (.undefinedClassE 0xFF#8) ∧
    decode 0xF140#16 = .error (.undefinedClassF 4#4 0#4) ∧ decode 0xF013#16 = .error (.undefinedClassF 1#4 3#4) ∧
    decode 0xF1FF#16 = .error (.undefinedClassF 0xF#4 0xF#4) ∧ decodeBytes [0x12#8] = .error .truncated := by decide

theorem test_decodeTableWord :
    decodeTableWord 16 0x6A05 = some (.ldImm 10 0x05#8) ∧ decodeTableWord 16 0x8128 = none := by decide

/-! ## One step (95_test_vectors.md Part 2) -/

/-- CYC-2: an odd pc. -/
theorem test_odd_pc : nextHolds (stepOf 0x602A (State.reset.setPc 0x301#16))
    (fun t => t.getV 0 == 0x2A#8 && t.pc == 0x303#16) = true := by decide

/-- CYC-4 -/
theorem test_fetch_out_of_range :
    faultIs (Sys2Proof.Machine.step (State.reset.setPc 0xFFF#16)) (.fetchOutOfRange 0xFFF#16) = true := by decide

/-- CYC-5 -/
theorem test_undefined_is_a_no_op : nextHolds (stepOf 0x8128 (start [(1, 0x11#8), (2, 0x22#8)]))
    (fun t => t.pc == 0x202#16 && t.getV 1 == 0x11#8 && t.getV 15 == 0 && t.opcode == 0x8128#16) = true := by decide

/-- CYC-3 -/
theorem test_sys : nextHolds (stepOf 0x0000 (State.reset.setPc 0xFFE#16)) (fun t => t.pc == 0x1000#16) = true := by decide

/-- FLOW-1 -/
theorem test_jp : nextHolds (stepOf 0x1234 State.reset) (fun t => t.pc == 0x234#16) = true := by decide

/-- FLOW-5 -/
theorem test_call_sixteenth : nextHolds (stepOf 0x2400 { State.reset with sp := 15, pc := 0x250#16 })
    (fun t => t.stack[15] == 0x252#16 && t.sp == 16 && t.pc == 0x400#16) = true := by decide

/-- FLOW-7 -/
theorem test_call_overflow :
    faultIs (stepOf 0x2400 { State.reset with sp := 16, pc := 0x250#16 }) (.stackOverflow 0x250#16) = true := by decide

/-- FLOW-4: the popped entry is kept. -/
theorem test_ret : nextHolds (stepOf 0x00EE { State.reset with sp := 1, stack := State.reset.stack.set 0 0x206#16, pc := 0x300#16 })
    (fun t => t.sp == 0 && t.pc == 0x206#16 && t.stack[0] == 0x206#16) = true := by decide

/-- FLOW-8 -/
theorem test_ret_underflow : faultIs (stepOf 0x00EE State.reset) (.stackUnderflow 0x200#16) = true := by decide

/-- FLOW-9, FLOW-10 -/
theorem test_se_imm : nextHolds (stepOf 0x3310 (start [(3, 0x10#8)])) (fun t => t.pc == 0x204#16) = true ∧
    nextHolds (stepOf 0x3310 (start [(3, 0x11#8)])) (fun t => t.pc == 0x202#16) = true := by decide

/-- FLOW-12, FLOW-13 -/
theorem test_sne_imm : nextHolds (stepOf 0x4310 (start [(3, 0x11#8)])) (fun t => t.pc == 0x204#16) = true ∧
    nextHolds (stepOf 0x4310 (start [(3, 0x10#8)])) (fun t => t.pc == 0x202#16) = true := by decide

/-- CYC-10, FLOW-15 -/
theorem test_se_reg : nextHolds (stepOf 0x5127 (start [(1, 7#8), (2, 7#8)])) (fun t => t.pc == 0x204#16) = true ∧
    nextHolds (stepOf 0x5120 (start [(1, 7#8), (2, 8#8)])) (fun t => t.pc == 0x202#16) = true := by decide

/-- FLOW-17, FLOW-18 -/
theorem test_sne_reg : nextHolds (stepOf 0x9120 (start [(1, 7#8), (2, 8#8)])) (fun t => t.pc == 0x204#16) = true ∧
    nextHolds (stepOf 0x9110 (start [(1, 0x2A#8)])) (fun t => t.pc == 0x202#16) = true := by decide

/-- FLOW-21: not reduced mod 4096. -/
theorem test_jp_v0 : nextHolds (stepOf 0xBFFF (start [(0, 0xFF#8)])) (fun t => t.pc == 0x10FE#16) = true := by decide

/-- ALU-2 -/
theorem test_ld_imm : nextHolds (stepOf 0x6FAA (start [(15, 0x33#8)])) (fun t => t.getV 15 == 0xAA#8) = true := by decide

/-- ALU-4: no carry flag. -/
theorem test_add_imm_wraps : nextHolds (stepOf 0x7101 (start [(1, 0xFF#8), (15, 0x55#8)]))
    (fun t => t.getV 1 == 0 && t.getV 15 == 0x55#8) = true := by decide

/-- ALU-6 -/
theorem test_ld_reg : nextHolds (stepOf 0x8120 (start [(2, 0x3C#8)])) (fun t => t.getV 1 == 0x3C#8) = true := by decide

/-- ALU-7, ALU-8, ALU-9 -/
theorem test_logic :
    nextHolds (stepOf 0x8121 (start [(1, 0xF0#8), (2, 0x0C#8), (15, 0x77#8)]))
      (fun t => t.getV 1 == 0xFC#8 && t.getV 15 == 0x77#8) = true ∧
    nextHolds (stepOf 0x8122 (start [(1, 0xF0#8), (2, 0x3C#8), (15, 0x77#8)]))
      (fun t => t.getV 1 == 0x30#8 && t.getV 15 == 0x77#8) = true ∧
    nextHolds (stepOf 0x8123 (start [(1, 0xF0#8), (2, 0x3C#8), (15, 0x77#8)]))
      (fun t => t.getV 1 == 0xCC#8 && t.getV 15 == 0x77#8) = true := by decide

/-- ALU-15: y = F reads the old VF. -/
theorem test_add_reg_carry : nextHolds (stepOf 0x81F4 (start [(1, 0xFF#8), (15, 0x01#8)]))
    (fun t => t.getV 1 == 0 && t.getV 15 == 1) = true := by decide

/-- ALU-10a: x = F, the sum overwrites the carry. -/
theorem test_add_reg_to_vf : nextHolds (stepOf 0x8F14 (start [(15, 0x10#8), (1, 0x20#8)]))
    (fun t => t.getV 15 == 0x30#8) = true := by decide

/-- ALU-22: x = F. -/
theorem test_sub_from_vf : nextHolds (stepOf 0x8F25 (start [(15, 0x10#8), (2, 0x05#8)]))
    (fun t => t.getV 15 == 0xFC#8) = true := by decide

/-- ALU-23: y = F. -/
theorem test_sub_vf : nextHolds (stepOf 0x81F5 (start [(1, 0x10#8), (15, 0x05#8)]))
    (fun t => t.getV 1 == 0x0F#8 && t.getV 15 == 1) = true := by decide

/-- ALU-28: y is ignored. -/
theorem test_shr : nextHolds (stepOf 0x81F6 (start [(1, 0x05#8), (15, 0x40#8)]))
    (fun t => t.getV 1 == 0x02#8 && t.getV 15 == 1) = true := by decide

/-- ALU-33: x = F. -/
theorem test_subn_to_vf : nextHolds (stepOf 0x8F27 (start [(15, 0x05#8), (2, 0x10#8)]))
    (fun t => t.getV 15 == 0x0F#8) = true := by decide

/-- ALU-34: y = F. -/
theorem test_subn_vf : nextHolds (stepOf 0x81F7 (start [(1, 0x03#8), (15, 0x05#8)]))
    (fun t => t.getV 1 == 0xFE#8 && t.getV 15 == 1) = true := by decide

/-- ALU-35, ALU-39 -/
theorem test_shl : nextHolds (stepOf 0x810E (start [(1, 0x81#8)])) (fun t => t.getV 1 == 0x02#8 && t.getV 15 == 1) = true ∧
    nextHolds (stepOf 0x8F0E (start [(15, 0xC1#8)])) (fun t => t.getV 15 == 0x02#8) = true := by decide

/-- ALU-41: the draw itself is free, so only what the spec fixes is tested. -/
theorem test_rnd : nextHolds (stepOf 0xC30F State.reset) (fun t => t.draws == 1 && t.pc == 0x202#16) = true := by decide

/-- MEM-1 -/
theorem test_ld_i : nextHolds (stepOf 0xA2F0 State.reset) (fun t => t.i == 0x2F0#16) = true := by decide

/-- MEM-4, MEM-5: no flag, and mod 2^16. -/
theorem test_add_i : nextHolds (stepOf 0xF21E ((start [(2, 1#8)]).setI 0xFFF#16)) (fun t => t.i == 0x1000#16 && t.getV 15 == 0) = true ∧
    nextHolds (stepOf 0xF21E ((start [(2, 1#8)]).setI 0xFFFF#16)) (fun t => t.i == 0#16) = true := by decide

/-- MEM-9: the whole byte. -/
theorem test_ld_f : nextHolds (stepOf 0xF429 (start [(4, 0x1A#8)])) (fun t => t.i == 0x0D2#16) = true := by decide

/-- MEM-12 -/
theorem test_ld_b : nextHolds (stepOf 0xF533 ((start [(5, 0xFF#8)]).setI 0x300#16))
    (fun t => t.mem.readBytes 0x300 3 == [2#8, 5#8, 5#8] && t.i == 0x300#16) = true := by decide

/-- MEM-16 -/
theorem test_ld_b_out_of_range :
    faultIs (stepOf 0xF533 ((start [(5, 9#8)]).setI 0xFFE#16)) (.memoryOutOfRange 0x1000) = true := by decide

/-- MEM-17, and MEM-26: the font is writable. -/
theorem test_st_regs : nextHolds (stepOf 0xF255 ((start [(0, 1#8), (1, 2#8), (2, 3#8), (3, 4#8)]).setI 0x400#16))
      (fun t => t.mem.readBytes 0x400 4 == [1#8, 2#8, 3#8, 0#8] && t.i == 0x400#16) = true ∧
    nextHolds (stepOf 0xF055 (State.reset.setI 0x050#16)) (fun t => t.readByte 0x050 == 0) = true := by decide

/-- MEM-20 -/
theorem test_st_regs_out_of_range :
    faultIs (stepOf 0xFF55 (State.reset.setI 0xFF1#16)) (.memoryOutOfRange 0x1000) = true := by decide

/-- MEM-23: the font at its default. -/
theorem test_ld_regs : nextHolds (stepOf 0xF465 ((start [(5, 7#8)]).setI 0x050#16))
    (fun t => t.getV 0 == 0xF0#8 && t.getV 1 == 0x90#8 && t.getV 4 == 0xF0#8 && t.getV 5 == 7#8) = true := by decide

/-- MEM-24 -/
theorem test_ld_regs_out_of_range :
    faultIs (stepOf 0xF065 (State.reset.setI 0x1000#16)) (.memoryOutOfRange 0x1000) = true := by decide

/-- DRW-13 -/
theorem test_cls : nextHolds (stepOf 0x00E0 { State.reset with gfx := State.reset.gfx.flip 3 5 })
    (fun t => t.gfx.pixel 3 5 == false && t.redraw) = true := by decide

/-- DRW-7: a collision. -/
theorem test_drw_collision :
    nextHolds (stepOf 0xD121 { (State.reset.setI 0x300#16).storeBytes 0x300 [0xC0#8] with gfx := State.reset.gfx.flip 0 0 })
      (fun t => t.gfx.pixel 0 0 == false && t.gfx.pixel 0 1 && t.gfx.pixel 0 2 == false && t.getV 15 == 1) = true := by decide

/-- DRW-2: the sprite wraps at the right edge. -/
theorem test_drw_wraps :
    nextHolds (stepOf 0xD121 (((start [(1, 0x3E#8)]).setI 0x300#16).storeBytes 0x300 [0xFF#8]))
      (fun t => t.gfx.pixel 0 62 && t.gfx.pixel 0 63 && t.gfx.pixel 0 5 && t.gfx.pixel 0 6 == false && t.getV 15 == 0) = true := by
  decide

/-- KEY-1, KEY-2 -/
theorem test_skp : nextHolds (stepOf 0xE19E (press 5 (start [(1, 5#8)]))) (fun t => t.pc == 0x204#16) = true ∧
    nextHolds (stepOf 0xE19E (start [(1, 5#8)])) (fun t => t.pc == 0x202#16) = true := by decide

/-- KEY-5 -/
theorem test_skp_index_out_of_range : faultIs (stepOf 0xE19E (start [(1, 0x10#8)])) (.keyIndexOutOfRange 0x10#8) = true := by
  decide

/-- KEY-3, KEY-4 -/
theorem test_sknp : nextHolds (stepOf 0xE1A1 (start [(1, 5#8)])) (fun t => t.pc == 0x204#16) = true ∧
    nextHolds (stepOf 0xE1A1 (press 5 (start [(1, 5#8)]))) (fun t => t.pc == 0x202#16) = true := by decide

/-- TMR-1 -/
theorem test_ld_vx_dt : nextHolds (stepOf 0xF307 (State.reset.setDt 0x3C#8)) (fun t => t.getV 3 == 0x3C#8) = true := by decide

/-- KEY-7 -/
theorem test_ld_vx_k_waits : nextHolds (stepOf 0xF50A (start [(5, 0x77#8)]))
    (fun t => t.pc == 0x200#16 && t.getV 5 == 0x77#8) = true := by decide

/-- KEY-8 -/
theorem test_ld_vx_k_lowest : nextHolds (stepOf 0xF50A (press 3 (press 9 State.reset)))
    (fun t => t.getV 5 == 3#8 && t.pc == 0x202#16) = true := by decide

/-- TMR-2 -/
theorem test_ld_dt_vx : nextHolds (stepOf 0xF315 (start [(3, 0x3C#8)])) (fun t => t.dt == 0x3C#8) = true := by decide

/-- TMR-3 -/
theorem test_ld_st_vx : nextHolds (stepOf 0xF318 (start [(3, 2#8)])) (fun t => t.st == 2#8) = true := by decide

/-! ## Host operations (95_test_vectors.md 2.7, 2.8) -/

/-- TMR-5, TMR-6 -/
theorem test_tick : (transact .tick (State.reset.setSt 1#8)).2 = .ticked true ∧
    (transact .tick (State.reset.setSt 1#8)).1.st = 0 ∧ (transact .tick State.reset).2 = .ticked false := by decide

/-- RST-5 -/
theorem test_load : (transact (.load (some [0x60#8])) State.reset).1.readByte 0x200 = 0x60#8 ∧
    (transact (.load (some [0x60#8])) State.reset).2 = .done := by decide

/-- RST-6 -/
theorem test_load_after_a_step :
    (transact (.load none) (transact .step State.reset).1).2 = .refused .loadNotOpen := by decide

/-- KEY-12 -/
theorem test_set_key_out_of_range : (transact (.setKey 16 true) State.reset).2 = .refused (.keySymbolOutOfRange 16) := by
  decide

/-- RST-7: the same fault again. -/
theorem test_halted_step : (transact .step ((State.reset).halt (.stackUnderflow 0x200#16))).2 =
    .failed (.stackUnderflow 0x200#16) := by decide

/-! ## Witnesses: the hypotheses of each statement are met together -/

theorem witness_DecodeOfEncode : (Instr.sys 0x123#12).wellFormed = true := by decide

theorem witness_DecodedWord : decode 0x8106#16 = .ok (.shr 1) := by decide

theorem witness_RowsOfTheOpcodeMap : decode 0x01E0#16 = .ok .cls ∧
    0x01E0#16 &&& (Instr.sys 0).row.mask = (Instr.sys 0).row.bits := by decide

/-- The last address from which a word can be fetched. -/
theorem witness_StepRunsTheDecodedInstruction :
    let s := (State.reset.setPc 0xFFE#16).withFetchWord 16 0x6A05
    s.run = .running ∧ s.pc.toNat + 1 ≤ 0xFFF ∧ decode s.fetchWord = .ok (.ldImm 10 0x05#8) := by decide

theorem witness_UndefinedWordIsANoOp :
    let s := State.reset.withFetchWord 16 0x8128
    s.run = .running ∧ s.pc.toNat + 1 ≤ 0xFFF ∧ decode s.fetchWord = .error (.undefinedClass8 8#4) := by decide

theorem witness_SysIsANoOp :
    State.reset.run = .running ∧ State.reset.pc.toNat + 1 ≤ 0xFFF ∧ decode State.reset.fetchWord = .ok (.sys 0#12) := by decide

/-- The step from reset, of the word 0x0000, which is SYS: the hypothesis `step s = next t` of many statements. -/
theorem witness_step_next : Sys2Proof.Machine.step State.reset = .next State.reset.fetched := by
  rw [step_running _ rfl (by decide), executeWord_ok (ins := .sys 0#12) _ (by decide)]
  rfl

theorem witness_FetchReadsTwoBytes : State.reset.run = .running ∧ State.reset.pc.toNat < 0xFFF ∧
    Sys2Proof.Machine.step State.reset = .next State.reset.fetched := ⟨rfl, by decide, witness_step_next⟩

theorem witness_FetchFaults : (State.reset.setPc 0xFFF#16).run = .running ∧ 0xFFF ≤ (State.reset.setPc 0xFFF#16).pc.toNat := by
  decide

theorem witness_HaltedStep : (State.reset.halt (.stackUnderflow 0x200#16)).run = .halted (.stackUnderflow 0x200#16) := by decide

theorem witness_FaultingStep : (State.reset.setPc 0xFFF#16).run = .running ∧
    Sys2Proof.Machine.step (State.reset.setPc 0xFFF#16) = .fault (.fetchOutOfRange 0xFFF#16) :=
  ⟨rfl, step_fetch_fault _ rfl (by decide)⟩

theorem witness_FaultsOfTheTable : State.reset.run = .running ∧ State.reset.mayLoad = true := by decide

theorem witness_EveryInstructionCompletes : faultCause State.reset .cls = none ∧
    faultCause State.reset .ret = some (.stackUnderflow 0x1FE#16) := by decide

theorem witness_InstructionsChangeOnlyTheirParts :
    exec (.ldImm 3 5#8) State.reset = .next (State.reset.setV 3 5#8) := rfl

theorem witness_FramebufferChanges : Sys2Proof.Machine.step State.reset = .next State.reset.fetched ∧
    decode State.reset.fetchWord ≠ .ok .cls ∧ ∀ x y n, decode State.reset.fetchWord ≠ .ok (.drw x y n) := by
  have h : decode State.reset.fetchWord = .ok (.sys 0#12) := by decide
  exact ⟨witness_step_next, by simp [h], fun x y n => by simp [h]⟩

theorem witness_StepsChangeTimers :
    (∀ x, decode State.reset.fetchWord ≠ .ok (.ldDtVx x)) ∧ (∀ x, decode State.reset.fetchWord ≠ .ok (.ldStVx x)) ∧
    Sys2Proof.Machine.step State.reset = .next State.reset.fetched := by
  have h : decode State.reset.fetchWord = .ok (.sys 0#12) := by decide
  exact ⟨fun x => by simp [h], fun x => by simp [h], witness_step_next⟩

theorem witness_TimerLoadSteps :
    decode (State.reset.withFetchWord 16 0xF315).fetchWord = .ok (.ldDtVx 3) ∧
    decode (State.reset.withFetchWord 16 0xF318).fetchWord = .ok (.ldStVx 3) ∧
    (∃ t, Sys2Proof.Machine.step (State.reset.withFetchWord 16 0xF315) = .next t) ∧
    (∃ t, Sys2Proof.Machine.step (State.reset.withFetchWord 16 0xF318) = .next t) := by
  refine ⟨by decide, by decide, ?_, ?_⟩
  · rw [step_running _ rfl (by decide), executeWord_ok (ins := .ldDtVx 3) _ (by decide)]
    exact ⟨_, rfl⟩
  · rw [step_running _ rfl (by decide), executeWord_ok (ins := .ldStVx 3) _ (by decide)]
    exact ⟨_, rfl⟩

theorem witness_SetKey : (15 : RegIdx).val = 15 ∧ 16 ≤ 16 := by decide

theorem witness_SoundTimer : (∀ x, Instr.cls ≠ .ldStVx x) ∧ Instr.ldStVx 3 = .ldStVx 3 := by decide

/-- A state with one entry in use, and entries that differ from its own at index 1 and above. -/
theorem witness_EntriesAboveTheStackTop :
    let s : State := { State.reset with sp := 1 }
    let entries := State.reset.stack.set 1 0x999#16
    (∀ j : Fin 16, j.val < s.sp.val → entries[j.val] = s.stack[j.val]) ∧ entries ≠ s.stack ∧
      exec (.sys 0) s = .next s := ⟨by decide, by decide, rfl⟩

/-- pc at I, so that the next word is V0, V1. -/
theorem witness_StoredBytesAreFetched :
    let s := State.reset.setI 0x200#16
    exec (.stRegs 1) s = .next (s.storeBytes 0x200 (s.regsUpTo 1)) ∧ (1 : RegIdx).val = (0 : RegIdx).val + 1 ∧
      (1 : RegIdx) ≤ 1 ∧ (s.storeBytes 0x200 (s.regsUpTo 1)).pc.toNat = s.i.toNat + (0 : RegIdx).val :=
  ⟨rfl, by decide, by decide, by decide⟩

theorem witness_Invariant : State.reset.Inv ∧ Sys2Proof.Machine.step State.reset = .next State.reset.fetched :=
  ⟨⟨State.reset_mem_wf, by decide, by decide, by decide⟩, witness_step_next⟩

theorem witness_EqualReads : Memory.wf [(0x050, 0#8), (0x200, 1#8)] ∧
    ∀ a, a ≤ 0xFFF → Memory.read [(0x050, 0#8), (0x200, 1#8)] a = Memory.read [(0x050, 0#8), (0x200, 1#8)] a :=
  ⟨by decide, fun _ _ => rfl⟩

/-- The bounds of the regions of R36. -/
theorem witness_ResetMemory : State.reset.readByte 0x04F = 0 ∧ State.reset.readByte 0x050 = 0xF0#8 ∧
    State.reset.readByte 0x09F = 0x80#8 ∧ State.reset.readByte 0x0A0 = 0 ∧ State.reset.readByte 0xFFF = 0 := by decide

theorem witness_Tick : State.reset.run = .running ∧ (State.reset.halt .loadError).run = .halted .loadError := by decide

theorem witness_Load : State.reset.mayLoad = true ∧ (List.replicate 3584 0xAB#8).length ≤ 3584 ∧
    3584 < (List.replicate 3585 0xAB#8).length :=
  ⟨by decide, by rw [List.length_replicate], by rw [List.length_replicate]; omega⟩

theorem witness_LoadIsAcceptedOnce : (transact (.load (some [0x60#8])) State.reset).2 = .done ∧
    ∀ op ∈ [HostOp.tick, .step], op ≠ .reset := by decide

theorem witness_SelfJump :
    let s := State.reset.withFetchWord 16 0x1200
    s.run = .running ∧ s.pc.toNat = (0x200#12).toNat ∧ s.pc.toNat < 0xFFF ∧ s.fetchWord = wordNNN 0x1 (0x200#12).toNat := by
  decide

/-- sp = 1, 16 and 0. -/
theorem witness_Return : ({ State.reset with sp := 1 } : State).sp.val = (0 : Fin 16).val + 1 ∧
    ({ State.reset with sp := 16 } : State).sp.val = (15 : Fin 16).val + 1 ∧ State.reset.sp.val = 0 := by decide

theorem witness_Sys : (0x123#12).toNat % 256 ≠ 0xE0 ∧ (0x123#12).toNat % 256 ≠ 0xEE := by decide

/-- sp = 0, 15 and 16. -/
theorem witness_Call : State.reset.sp.val = (0 : Fin 16).val ∧
    ({ State.reset with sp := 15 } : State).sp.val = (15 : Fin 16).val ∧
    ({ State.reset with sp := 16 } : State).sp.val = 16 := by decide

theorem witness_CallThenReturn : ∃ t u : State, exec (.call 0x300#12) State.reset = .next t ∧ u.sp = t.sp ∧
    ∀ j : Fin 16, j.val < t.sp.val → u.stack[j.val] = t.stack[j.val] := ⟨_, _, rfl, rfl, fun _ _ => rfl⟩

/-- The last I from which LD B fits, and the next. -/
theorem witness_DecimalDigits : (State.reset.setI 0xFFD#16).i.toNat + 2 ≤ 0xFFF ∧
    0xFFF < (State.reset.setI 0xFFE#16).i.toNat + 2 := by decide

/-- The last I from which sixteen registers fit, and the next. -/
theorem witness_RegisterTransfers : (State.reset.setI 0xFF0#16).i.toNat + (15 : RegIdx).val ≤ 0xFFF ∧
    0xFFF < (State.reset.setI 0xFF1#16).i.toNat + (15 : RegIdx).val ∧ (15 : RegIdx) ≤ 15 := by decide

/-- No row at I = 0xFFFF; the last I from which three rows fit; and the next. -/
theorem witness_Draw : (0 : Fin 16).val = 0 ∧ (State.reset.setI 0xFFD#16).i.toNat + (3 : Fin 16).val - 1 ≤ 0xFFF ∧
    (0 < (3 : Fin 16).val ∧ 0xFFF < (State.reset.setI 0xFFE#16).i.toNat + (3 : Fin 16).val - 1) := by decide

theorem witness_DrawingTwice : ∃ t v, exec (.drw 1 2 1) State.reset = .next t ∧ t.i = State.reset.i ∧
    t.getV 1 = State.reset.getV 1 ∧ t.getV 2 = State.reset.getV 2 ∧ (∀ a, t.readByte a = State.reset.readByte a) ∧
    exec (.drw 1 2 1) t = .next v := ⟨_, _, rfl, rfl, rfl, rfl, fun _ => rfl, rfl⟩

/-- V1 = 0xF names the last key; 0x10 names none. -/
theorem witness_SkipOnKey : ((start [(1, 0x0F#8)]).getV 1).toNat = (15 : RegIdx).val ∧
    0xF < ((start [(1, 0x10#8)]).getV 1).toNat := by decide

/-- Only the last key pressed; and none pressed. -/
theorem witness_KeyWait : (press 15 State.reset).keyDown 15 = true ∧
    (∀ j < (15 : RegIdx), (press 15 State.reset).keyDown j = false) ∧ ∀ k, State.reset.keyDown k = false := by decide

end Sys2Proof.Tests
end

section
/-! SUPPORT. For each instruction whose meaning branches, the condition under which it answers a next state, and which one. -/

namespace Sys2Proof.Machine

variable {s t : State}

/-- A checked access whose go-on is a next state answers that state or the fault (20_memory.md R44). -/
theorem checkRange_next_iff {last : Nat} {u : State} :
    checkRange last (.next u) = .next t ↔ last ≤ 0xFFF ∧ t = u := by
  rw [checkRange_eq_next, Host.Outcome.next.injEq, eq_comm (a := u)]

/-- RET completes exactly when there is an entry to pop (41_flow.md R74). -/
theorem exec_ret_eq_next : exec .ret s = .next t ↔ ∃ a u, s.pop = some (a, u) ∧ t = u.setPc a := by
  simp only [exec, execRet]
  split
  · next a u h => simp [h, eq_comm]
  · next h => simp [h, raise]

/-- CALL completes exactly when its return address can be pushed (R77). -/
theorem exec_call_eq_next {nnn : Addr} :
    exec (.call nnn) s = .next t ↔ ∃ u, s.push s.pc = some u ∧ t = u.setPc (zextAddr nnn) := by
  simp only [exec, execCall]
  split
  · next u h => simp [h, eq_comm]
  · next h => simp [h, raise]

/-- DRW completes exactly when it reads no byte or the last one it reads exists (44 R108). -/
theorem exec_drw_eq_next {x y : RegIdx} {n : Fin 16} :
    exec (.drw x y n) s = .next t ↔
      (n.val = 0 ∨ s.indexAddress + n.val - 1 ≤ 0xFFF) ∧ t = s.drawSprite x y n.val := by
  simp only [exec, execDrw]
  split
  · next h => simp [h, eq_comm]
  · next h => rw [checkRange_next_iff, or_iff_right h]

theorem exec_ldB_eq_next {x : RegIdx} :
    exec (.ldB x) s = .next t ↔
      s.indexAddress + 2 ≤ 0xFFF ∧ t = s.storeBytes s.indexAddress (decimalDigits (s.getV x)) :=
  checkRange_next_iff

theorem exec_stRegs_eq_next {x : RegIdx} :
    exec (.stRegs x) s = .next t ↔
      s.indexAddress + x.val ≤ 0xFFF ∧ t = s.storeBytes s.indexAddress (s.regsUpTo x) :=
  checkRange_next_iff

theorem exec_ldRegs_eq_next {x : RegIdx} :
    exec (.ldRegs x) s = .next t ↔ s.indexAddress + x.val ≤ 0xFFF ∧ t = s.loadRegsFrom s.indexAddress x :=
  checkRange_next_iff

/-- SKP and SKNP complete exactly when V[x] names a key (44 R110, R111). -/
theorem skipOnKey_eq_next {x : RegIdx} {pressed : Bool} :
    skipOnKey x pressed s = .next t ↔
      ∃ k, keyOfByte (s.getV x) = some k ∧ t = s.skipIf (s.keyDown k == pressed) := by
  simp only [skipOnKey]
  split
  · next k h => simp [h, eq_comm]
  · next h => simp [h, raise]

/-- LD Vx, K always completes: with the lowest pressed key, or back at itself (44 R113). -/
theorem exec_ldVxK_eq_next {x : RegIdx} :
    exec (.ldVxK x) s = .next t ↔
      (∃ k, s.lowestKey = some k ∧ t = s.setV x (BitVec.ofNat 8 k.val)) ∨ (s.lowestKey = none ∧ t = s.rewind) := by
  simp only [exec, execLdVxK]
  split
  · next k h => simp [h, eq_comm]
  · next h => simp [h, eq_comm]

end Sys2Proof.Machine
end

section
/-! SUPPORT. The frame of every instruction, and for each part of the state which instructions are its writers. -/

namespace Sys2Proof.Machine

variable {s t : State}

/-- The ALU instructions that write VF and then V[x] (42_alu.md R92 to R96). -/
theorem changesOnly_setFlag_setV (s : State) (f : Byte) (x : RegIdx) (b : Byte) :
    ChangesOnly s ((s.setFlag f).setV x b) (fun p => p = .v x ∨ p = .v vf) :=
  ((changesOnly_setFlag s f).trans (changesOnly_setV _ x b)).mono fun _ => Or.symm

theorem changesOnly_drawSprite (s : State) (x y : RegIdx) (n : Nat) :
    ChangesOnly s (s.drawSprite x y n) (fun p => p = .v vf ∨ p = .redraw ∨ ∃ r c, p = .pixel r c) :=
  (changesOnly_setFlag s _).trans (changesOnly_setGfx _ _)

theorem changesOnly_skipOnKey {x : RegIdx} {pressed : Bool} (h : skipOnKey x pressed s = .next t) :
    ChangesOnly s t (· = .pc) := by
  obtain ⟨k, -, rfl⟩ := skipOnKey_eq_next.mp h
  exact changesOnly_skipIf s _

/-- An instruction that completes keeps every part outside its list of writes. -/
theorem exec_changesOnly {ins : Instr} (h : exec ins s = .next t) : ChangesOnly s t (mayWrite s ins) := by
  cases ins with
  | cls => cases h; exact changesOnly_setGfx s _
  | ret =>
    obtain ⟨a, u, hu, rfl⟩ := exec_ret_eq_next.mp h
    exact (changesOnly_pop s hu).trans (changesOnly_setPc u a)
  | sys => cases h; exact ChangesOnly.refl s _
  | jp | jpV0 => cases h; exact changesOnly_setPc s _
  | call =>
    obtain ⟨u, hu, rfl⟩ := exec_call_eq_next.mp h
    exact ((changesOnly_push s hu).trans (changesOnly_setPc u _)).mono fun _ => Or.symm
  | seImm | sneImm | seReg | sneReg => cases h; exact changesOnly_skipIf s _
  | skp | sknp => exact changesOnly_skipOnKey h
  | ldImm | addImm | ldReg | orReg | andReg | xorReg | ldVxDt => cases h; exact changesOnly_setV s _ _
  | addReg | sub | shr | subn | shl => cases h; exact changesOnly_setFlag_setV s _ _ _
  | ldI | addI | ldF => cases h; exact changesOnly_setI s _
  | rnd x =>
    cases h
    exact ((changesOnly_draw s).trans (changesOnly_setV _ x _)).mono fun _ => Or.symm
  | drw x y n =>
    obtain ⟨-, rfl⟩ := exec_drw_eq_next.mp h
    exact changesOnly_drawSprite s x y n
  | ldVxK x =>
    obtain ⟨k, -, rfl⟩ | ⟨-, rfl⟩ := exec_ldVxK_eq_next.mp h
    · exact (changesOnly_setV s x _).mono fun _ => Or.inl
    · exact (changesOnly_rewind s).mono fun _ => Or.inr
  | ldDtVx => cases h; exact changesOnly_setDt s _
  | ldStVx => cases h; exact changesOnly_setSt s _
  | ldB x =>
    obtain ⟨-, rfl⟩ := exec_ldB_eq_next.mp h
    exact changesOnly_storeBytes s _ _
  | stRegs x =>
    obtain ⟨-, rfl⟩ := exec_stRegs_eq_next.mp h
    have frame := changesOnly_storeBytes s s.indexAddress (s.regsUpTo x)
    rwa [State.regsUpTo_length] at frame
  | ldRegs x =>
    obtain ⟨-, rfl⟩ := exec_ldRegs_eq_next.mp h
    exact changesOnly_loadRegsFrom s _ x

/-- Settles O13: the frame of each instruction is that of the updates its meaning is made of. -/
theorem instructionsChangeOnlyTheirParts : Obligations.InstructionsChangeOnlyTheirParts :=
  fun _ _ _ => exec_changesOnly

/-! ### The writers of one part -/

theorem mayWrite_pixel {ins : Instr} {r : Fin Config.height} {c : Fin Config.width} :
    mayWrite s ins (.pixel r c) ↔ ins = .cls ∨ ∃ x y n, ins = .drw x y n := by
  cases ins <;> simp [mayWrite]

theorem mayWrite_redraw {ins : Instr} : mayWrite s ins .redraw ↔ ins = .cls ∨ ∃ x y n, ins = .drw x y n := by
  cases ins <;> simp [mayWrite]

theorem mayWrite_dt {ins : Instr} : mayWrite s ins .dt ↔ ∃ x, ins = .ldDtVx x := by
  cases ins <;> simp [mayWrite]

theorem mayWrite_st {ins : Instr} : mayWrite s ins .st ↔ ∃ x, ins = .ldStVx x := by
  cases ins <;> simp [mayWrite]

theorem mayWrite_sp {ins : Instr} : mayWrite s ins .sp ↔ ins = .ret ∨ ∃ nnn, ins = .call nnn := by
  cases ins <;> simp [mayWrite]

theorem mayWrite_stack {ins : Instr} {j : Fin 16} :
    mayWrite s ins (.stack j) ↔ j.val = s.sp.val ∧ ∃ nnn, ins = .call nnn := by
  cases ins <;> simp [mayWrite]

theorem not_mayWrite_key (ins : Instr) (k : RegIdx) : ¬ mayWrite s ins (.key k) := by
  cases ins <;> simp [mayWrite]

theorem not_mayWrite_opcode (ins : Instr) : ¬ mayWrite s ins .opcode := by
  cases ins <;> simp [mayWrite]

theorem not_mayWrite_run (ins : Instr) : ¬ mayWrite s ins .run := by
  cases ins <;> simp [mayWrite]

/-! ### What a whole step keeps -/

/-- A step leaves a part as the fetch left it, unless the fetched word is an instruction that writes it. -/
theorem step_unchanged_since_fetch {p : Part} (h : Sys2Proof.Machine.step s = .next t)
    (hp : ∀ ins, decode s.fetchWord = .ok ins → ¬ mayWrite s.fetched ins p) : Unchanged s.fetched t p := by
  obtain ⟨-, -, ⟨ins, hd, he⟩ | ⟨e, -, rfl⟩⟩ := step_cases s h
  · exact exec_changesOnly he p (hp ins hd)
  · exact ChangesOnly.refl s.fetched (fun _ => False) p id

/-- A step whose fetched word decodes is that instruction, run after the fetch. -/
theorem exec_of_step {ins : Instr} (h : Sys2Proof.Machine.step s = .next t) (hd : decode s.fetchWord = .ok ins) :
    exec ins s.fetched = .next t := by
  obtain ⟨-, -, ⟨ins', hd', he⟩ | ⟨e, hd', -⟩⟩ := step_cases s h
  · cases hd.symm.trans hd'; exact he
  · cases hd.symm.trans hd'

theorem gfx_eq_of_unchanged (h : ∀ r c, Unchanged s t (.pixel r c)) : t.gfx = s.gfx := Gfx.ext_pixel h

theorem key_eq_of_unchanged (h : ∀ k, Unchanged s t (.key k)) : t.key = s.key :=
  Vector.ext fun k hk => h ⟨k, hk⟩

end Sys2Proof.Machine
end

section
/-! SUPPORT. The invariant of every run, clause by clause, over one instruction and then over one step. -/

namespace Sys2Proof.Machine

variable {s t : State}

/-- An instruction leaves memory as it was, or writes bytes from I up inside the address space (20_memory.md R42, R44). -/
theorem exec_mem {ins : Instr} (h : exec ins s = .next t) :
    t.mem = s.mem ∨
      ∃ ds : List Byte, s.indexAddress + ds.length ≤ lastAddress + 1 ∧ t.mem = s.mem.writeBytes s.indexAddress ds := by
  cases ins with
  | ldB x =>
    obtain ⟨hi, rfl⟩ := exec_ldB_eq_next.mp h
    have hl : (decimalDigits (s.getV x)).length = 3 := rfl
    exact .inr ⟨decimalDigits (s.getV x), by rw [hl, lastAddress]; omega, State.storeBytes_mem s _ _⟩
  | stRegs x =>
    obtain ⟨hi, rfl⟩ := exec_stRegs_eq_next.mp h
    exact .inr ⟨s.regsUpTo x, by rw [State.regsUpTo_length, lastAddress]; omega, State.storeBytes_mem s _ _⟩
  | ret =>
    obtain ⟨a, u, hu, rfl⟩ := exec_ret_eq_next.mp h
    obtain ⟨-, -, rfl⟩ := s.pop_eq_some.mp hu
    exact .inl rfl
  | call nnn =>
    obtain ⟨u, hu, rfl⟩ := exec_call_eq_next.mp h
    obtain ⟨-, rfl⟩ := s.push_eq_some.mp hu
    exact .inl rfl
  | drw x y n => obtain ⟨-, rfl⟩ := exec_drw_eq_next.mp h; exact .inl rfl
  | ldRegs x => obtain ⟨-, rfl⟩ := exec_ldRegs_eq_next.mp h; exact .inl (State.loadRegsFrom_mem s _ x)
  | skp x => obtain ⟨k, -, rfl⟩ := skipOnKey_eq_next.mp h; rw [State.skipIf_eq]; exact .inl rfl
  | sknp x => obtain ⟨k, -, rfl⟩ := skipOnKey_eq_next.mp h; rw [State.skipIf_eq]; exact .inl rfl
  | ldVxK x => obtain ⟨k, -, rfl⟩ | ⟨-, rfl⟩ := exec_ldVxK_eq_next.mp h <;> exact .inl rfl
  | seImm | sneImm | seReg | sneReg => cases h; rw [State.skipIf_eq]; exact .inl rfl
  | _ => cases h; exact .inl rfl

theorem exec_mem_wf {ins : Instr} (h : exec ins s = .next t) (hm : s.mem.wf) : t.mem.wf := by
  obtain e | ⟨ds, hl, e⟩ := exec_mem h
  · rwa [e]
  · rw [e]; exact Memory.wf_writeBytes _ _ _ hm hl

/-- The largest sum of JP V0: 0xFFF + 0xFF (41_flow.md R83). -/
theorem zextAddr_add_zextByte_le (nnn : Addr) (b : Byte) : (zextAddr nnn + zextByte b).toNat ≤ maxPc := by
  have := nnn.isLt
  have := b.isLt
  simp only [zextAddr, zextByte, maxPc]
  bv_omega

theorem zextAddr_le (nnn : Addr) : (zextAddr nnn).toNat ≤ maxPc := by
  simpa [zextByte] using zextAddr_add_zextByte_le nnn 0

/-- A skip from a fetched pc stays below the bound (40_cycle.md R72). -/
theorem skipIf_pc_le (c : Bool) (hp : s.pc.toNat ≤ lastAddress + 1) : (s.skipIf c).pc.toNat ≤ maxPc := by
  simp only [lastAddress] at hp
  cases c <;> simp only [State.skipIf_true, State.skipIf_false, State.skip_pc, maxPc] <;> bv_omega

/-- From a pc that the fetch has moved past a word inside memory, with an address in every stack entry, no instruction makes a
pc above the bound (10_state.md R22). -/
theorem exec_pc_le {ins : Instr} (h : exec ins s = .next t) (hlo : 2 ≤ s.pc.toNat) (hp : s.pc.toNat ≤ lastAddress + 1)
    (hs : ∀ j : Fin 16, s.stack[j.val].toNat ≤ lastAddress + 1) : t.pc.toNat ≤ maxPc := by
  by_cases hw : mayWrite s ins .pc
  · cases ins with
    | ret =>
      obtain ⟨a, u, hu, rfl⟩ := exec_ret_eq_next.mp h
      obtain ⟨hsp, rfl, -⟩ := s.pop_eq_some.mp hu
      have := hs ⟨s.sp.val - 1, by omega⟩
      simp only [State.setPc_pc, maxPc, lastAddress] at this ⊢
      omega
    | jp nnn => cases h; exact zextAddr_le nnn
    | call nnn => obtain ⟨u, -, rfl⟩ := exec_call_eq_next.mp h; exact zextAddr_le nnn
    | jpV0 nnn => cases h; exact zextAddr_add_zextByte_le nnn _
    | seImm | sneImm | seReg | sneReg => cases h; exact skipIf_pc_le _ hp
    | skp x => obtain ⟨k, -, rfl⟩ := skipOnKey_eq_next.mp h; exact skipIf_pc_le _ hp
    | sknp x => obtain ⟨k, -, rfl⟩ := skipOnKey_eq_next.mp h; exact skipIf_pc_le _ hp
    | ldVxK x =>
      simp only [lastAddress] at hp
      obtain ⟨k, -, rfl⟩ | ⟨-, rfl⟩ := exec_ldVxK_eq_next.mp h
      · rw [State.setV_pc, maxPc]; omega
      · rw [State.rewind_pc, maxPc]; bv_omega
    | _ => simp [mayWrite] at hw
  · have hpc : t.pc = s.pc := exec_changesOnly h .pc hw
    rw [hpc, maxPc]
    simp only [lastAddress] at hp
    omega

/-- Every stack entry stays an address that a CALL could push: only CALL writes one, the pc of its step (R23). -/
theorem exec_stack_le {ins : Instr} (h : exec ins s = .next t) (hp : s.pc.toNat ≤ lastAddress + 1)
    (hs : ∀ j : Fin 16, s.stack[j.val].toNat ≤ lastAddress + 1) (j : Fin 16) :
    t.stack[j.val].toNat ≤ lastAddress + 1 := by
  by_cases hw : mayWrite s ins (.stack j)
  · obtain ⟨hj, nnn, rfl⟩ := mayWrite_stack.mp hw
    obtain ⟨u, hu, rfl⟩ := exec_call_eq_next.mp h
    obtain ⟨hlt, rfl⟩ := s.push_eq_some.mp hu
    simpa [hj] using hp
  · have hst : t.stack[j.val] = s.stack[j.val] := exec_changesOnly h (.stack j) hw
    rw [hst]; exact hs j

/-- An instruction run after the fetch of a word inside memory keeps the invariant. -/
theorem exec_fetched_inv {ins : Instr} (h : exec ins s.fetched = .next t) (hf : s.pc.toNat + 1 ≤ 0xFFF) (hi : s.Inv) :
    t.Inv := by
  obtain ⟨hm, -, hs, hr⟩ := hi
  have hpc : s.fetched.pc.toNat = s.pc.toNat + 2 := by rw [State.fetched_pc]; bv_omega
  have hp : s.fetched.pc.toNat ≤ lastAddress + 1 := by rw [hpc, lastAddress]; omega
  have hrun : t.run = s.run := exec_changesOnly h .run (not_mayWrite_run ins)
  exact ⟨exec_mem_wf h hm, exec_pc_le h (by omega) hp hs, exec_stack_le h hp hs, hrun ▸ hr⟩

/-- Settles O23: the fetch and then one instruction, an UNDEFINED word ending in the same state as SYS. -/
theorem everyStepKeepsTheInvariant : Obligations.EveryStepKeepsTheInvariant := by
  intro s t hi h
  obtain ⟨-, hf, ⟨ins, -, he⟩ | ⟨e, -, rfl⟩⟩ := step_cases s h
  · exact exec_fetched_inv he hf hi
  · exact exec_fetched_inv (ins := .sys 0) rfl hf hi

/-- Settles O22: each clause is a closed fact about the reset values. -/
theorem resetMeetsTheInvariant : Obligations.ResetMeetsTheInvariant :=
  ⟨State.reset_mem_wf, by decide, by decide, by decide⟩

end Sys2Proof.Machine
end

section
/-! SUPPORT. The host operations' frames, and the parts of the state that only some operations write. -/

namespace Sys2Proof.Machine

variable {s t : State}

theorem changesOnly_tick (s : State) : ChangesOnly s (transact .tick s).1 (fun p => p = .dt ∨ p = .st) := by
  cases hr : s.run with
  | running => rw [transact_tick_running s hr]; exact (changesOnly_setDt s _).trans (changesOnly_setSt _ _)
  | halted cause => rw [transact_tick_halted s hr]; exact ChangesOnly.refl s _

theorem changesOnly_setKey (s : State) (symbol : Nat) (pressed : Bool) :
    ChangesOnly s (transact (.setKey symbol pressed) s).1 (fun p => ∃ k, p = .key k) := by
  by_cases hk : symbol < 16
  · rw [transact_setKey_done s ⟨symbol, hk⟩]
    intro p hp
    cases p with
    | key k => exact absurd ⟨k, rfl⟩ hp
    | _ => rfl
  · rw [transact_setKey_refused s pressed (Nat.le_of_not_lt hk)]
    exact ChangesOnly.refl s _

/-- A load leaves the state as it was, or copies an image that fits (70_reset_and_hazards.md R133, R134). -/
theorem transact_load_cases (s : State) (image : Option (List Byte)) :
    (transact (.load image) s).1 = s ∨
      ∃ bytes : List Byte, bytes.length ≤ 3584 ∧
        (transact (.load image) s).1 = { s.storeBytes programBase bytes with loadOpen := false } := by
  cases hm : s.mayLoad with
  | false => exact .inl (congrArg Prod.fst (transact_load_refused s image hm))
  | true =>
    cases image with
    | none => exact .inl (congrArg Prod.fst (transact_load_unreadable s hm))
    | some bytes =>
      by_cases hl : bytes.length ≤ 3584
      · exact .inr ⟨bytes, hl, congrArg Prod.fst (transact_load_done s hm hl)⟩
      · exact .inl (congrArg Prod.fst (transact_load_too_long s hm (Nat.lt_of_not_le hl)))

theorem changesOnly_load (s : State) (image : Option (List Byte)) :
    ChangesOnly s (transact (.load image) s).1 (fun p => p = .loadOpen ∨ ∃ a, p = .byte a) := by
  obtain e | ⟨bytes, -, e⟩ := transact_load_cases s image <;> rw [e]
  · exact ChangesOnly.refl s _
  · intro p hp
    cases p with
    | loadOpen => exact absurd (.inl rfl) hp
    | byte a => exact absurd (.inr ⟨a, rfl⟩) hp
    | _ => rfl

/-! ### The framebuffer (10_state.md R27) -/

/-- The display lists the pixels of the framebuffer's rows, one row after the other. -/
theorem display_pixels (s : State) : s.display.1 = s.gfx.flatten.toList := by
  change _ = (s.gfx.toArray.map Vector.toArray).flatten.toList
  rw [Array.toList_flatten, Array.toList_map, List.map_map]
  rfl

/-- Row-major order: pixel (r, c) is number `r * 64 + c` of the display (R27). -/
theorem display_getElem (s : State) (r : Fin Config.height) (c : Fin Config.width) :
    s.display.1[r.val * 64 + c.val]? = some (s.gfx.pixel r c) := by
  have hr : r.val < 32 := r.isLt
  have hc : c.val < 64 := c.isLt
  have row : (r.val * 64 + c.val) / 64 = r.val := by omega
  have column : (r.val * 64 + c.val) % 64 = c.val := by omega
  rw [display_pixels, Vector.getElem?_toList, Vector.getElem?_eq_getElem (by simp only [Config.width, Config.height]; omega),
    Vector.getElem_flatten]
  simp only [Config.width, row, column]
  rfl

theorem display_length (s : State) : s.display.1.length = 64 * 32 := by
  rw [display_pixels, Vector.length_toList, Config.height, Config.width]

/-- Settles O14: neither the fetch nor an instruction but CLS and DRW, nor a tick, a key event or a load has a pixel in its
frame. -/
theorem framebufferChangesByClearAndDrawOnly : Obligations.FramebufferChangesByClearAndDrawOnly := by
  refine ⟨fun s r c => ⟨display_getElem s r c, display_length s⟩, fun s t h hcls hdrw => ?_,
    fun s image k pressed => ⟨?_, ?_, ?_⟩⟩
  · refine gfx_eq_of_unchanged (s := s.fetched) fun r c => step_unchanged_since_fetch h fun ins hd hw => ?_
    obtain rfl | ⟨x, y, n, rfl⟩ := mayWrite_pixel.mp hw
    · exact hcls hd
    · exact hdrw x y n hd
  · exact gfx_eq_of_unchanged fun r c => changesOnly_tick s _ (by simp)
  · exact gfx_eq_of_unchanged fun r c => changesOnly_setKey s k pressed _ (by simp)
  · exact gfx_eq_of_unchanged fun r c => changesOnly_load s image _ (by simp)

/-! ### The keys (R28) -/

/-- Settles O15: no key is in the frame of an instruction, a tick or a load; `set_key` writes the one entry. -/
theorem keysChangeBySetKeyOnly : Obligations.KeysChangeBySetKeyOnly := by
  refine ⟨fun s t h => ?_, fun s image => ⟨?_, ?_⟩, fun s k pressed => ?_⟩
  · exact key_eq_of_unchanged (s := s.fetched) fun k =>
      step_unchanged_since_fetch h fun ins _ => not_mayWrite_key ins k
  · exact key_eq_of_unchanged fun k => changesOnly_tick s _ (by simp)
  · exact key_eq_of_unchanged fun k => changesOnly_load s image _ (by simp)
  · rw [transact_setKey_done]
    simp [State.keyDown]

/-! ### The timers (R25, R26) -/

/-- Settles O16: DT and ST each have one writer among the instructions, and the fetch keeps both and every V[x]. -/
theorem stepsChangeTimersByTheirLoadsOnly : Obligations.StepsChangeTimersByTheirLoadsOnly := by
  intro s t h
  refine ⟨fun hn => ?_, fun x hd => ?_, fun hn => ?_, fun x hd => ?_⟩
  · refine step_unchanged_since_fetch (p := .dt) h fun ins hd hw => ?_
    obtain ⟨x, rfl⟩ := mayWrite_dt.mp hw
    exact hn x hd
  · cases exec_of_step h hd; rfl
  · refine step_unchanged_since_fetch (p := .st) h fun ins hd hw => ?_
    obtain ⟨x, rfl⟩ := mayWrite_st.mp hw
    exact hn x hd
  · cases exec_of_step h hd; rfl

/-! ### redraw (R30) -/

/-- CLS and DRW set redraw whenever they complete. -/
theorem exec_redraw_of_mayWrite {ins : Instr} (h : exec ins s = .next t) (hw : mayWrite s ins .redraw) :
    t.redraw = true := by
  obtain rfl | ⟨x, y, n, rfl⟩ := mayWrite_redraw.mp hw
  · cases h; rfl
  · obtain ⟨-, rfl⟩ := exec_drw_eq_next.mp h; rfl

/-- Settles O17: the fetch clears redraw, and CLS and DRW alone have it in their frame. -/
theorem redrawIsSetByClearAndDrawOnly : Obligations.RedrawIsSetByClearAndDrawOnly := by
  refine fun s t h => ⟨⟨fun hr => ?_, fun hd => ?_⟩, stepBlock_next s h⟩
  · by_contra hn
    have kept : t.redraw = false := step_unchanged_since_fetch (p := .redraw) h fun ins hd hw => by
      obtain rfl | ⟨x, y, n, rfl⟩ := mayWrite_redraw.mp hw
      · exact hn (.inl hd)
      · exact hn (.inr ⟨x, y, n, hd⟩)
    exact Bool.false_ne_true (kept.symm.trans hr)
  · obtain hd | ⟨x, y, n, hd⟩ := hd
    · exact exec_redraw_of_mayWrite (exec_of_step h hd) (mayWrite_redraw.mpr (.inl rfl))
    · exact exec_redraw_of_mayWrite (exec_of_step h hd) (mayWrite_redraw.mpr (.inr ⟨x, y, n, rfl⟩))

end Sys2Proof.Machine
end

section
/-! SUPPORT. What no instruction reads: opcode, ST, and the stack entries that are not in use. -/

namespace Sys2Proof.Machine

variable {s t : State}

/-- The state with opcode, ST and the stack's entries changed: the parts that no instruction but RET, which pops, reads. -/
def State.mapUnread (o : Word → Word) (b : Byte → Byte) (e : Vector Word 16 → Vector Word 16) (s : State) : State :=
  { s with opcode := o s.opcode, st := b s.st, stack := e s.stack }

variable (o : Word → Word) (b : Byte → Byte) (e : Vector Word 16 → Vector Word 16)

theorem mapNext_checkRange (f : State → State) (last : Nat) (go : Result) :
    mapNext f (checkRange last go) = checkRange last (mapNext f go) := by
  unfold checkRange
  split <;> rfl

theorem State.skipIf_mapUnread (s : State) (c : Bool) :
    (s.mapUnread o b e).skipIf c = (s.skipIf c).mapUnread o b e := by
  cases c <;> rfl

theorem State.loadRegsFrom_mapUnread (s : State) (a : Nat) (x : RegIdx) :
    (s.mapUnread o b e).loadRegsFrom a x = (s.loadRegsFrom a x).mapUnread o b e := by
  simp only [State.mapUnread, State.loadRegsFrom]
  rfl

theorem skipOnKey_mapUnread (x : RegIdx) (pressed : Bool) (s : State) :
    skipOnKey x pressed (s.mapUnread o b e) = mapNext (State.mapUnread o b e) (skipOnKey x pressed s) := by
  unfold skipOnKey
  rw [show (s.mapUnread o b e).getV x = s.getV x from rfl]
  cases keyOfByte (s.getV x) with
  | some k => exact congrArg Host.Outcome.next (State.skipIf_mapUnread o b e s _)
  | none => rfl

/-- An instruction that uses neither the stack nor writes ST does the same with the unread parts changed, and keeps the
change. -/
theorem exec_mapUnread {ins : Instr} (s : State) (hst : ∀ x, ins ≠ .ldStVx x) (hret : ins ≠ .ret)
    (hcall : ∀ nnn, ins ≠ .call nnn) :
    exec ins (s.mapUnread o b e) = mapNext (State.mapUnread o b e) (exec ins s) := by
  cases ins with
  | ret => exact absurd rfl hret
  | call nnn => exact absurd rfl (hcall nnn)
  | ldStVx x => exact absurd rfl (hst x)
  | seImm | sneImm | seReg | sneReg => exact congrArg Host.Outcome.next (State.skipIf_mapUnread o b e s _)
  | skp x => exact skipOnKey_mapUnread o b e x true s
  | sknp x => exact skipOnKey_mapUnread o b e x false s
  | ldB x => simp only [exec, execLdB, mapNext_checkRange]; rfl
  | stRegs x => simp only [exec, execStRegs, mapNext_checkRange]; rfl
  | ldRegs x => simp only [exec, execLdRegs, mapNext_checkRange, State.loadRegsFrom_mapUnread]; rfl
  | drw x y n =>
    simp only [exec, execDrw]
    split
    · rfl
    · rw [mapNext_checkRange]; rfl
  | ldVxK x =>
    simp only [exec, execLdVxK]
    rw [show (s.mapUnread o b e).lowestKey = s.lowestKey from rfl]
    cases s.lowestKey <;> rfl
  | _ => rfl

theorem State.pop_mapUnread (s : State) :
    (s.mapUnread o b id).pop = s.pop.map (Prod.map id (State.mapUnread o b id)) := by
  cases hp : s.pop with
  | none => exact (State.pop_eq_none _).mpr (s.pop_eq_none.mp hp)
  | some q =>
    obtain ⟨hs, ha, ht⟩ := s.pop_eq_some.mp hp
    exact (State.pop_eq_some _).mpr ⟨hs, ha, congrArg (State.mapUnread o b id) ht⟩

theorem State.push_mapUnread (s : State) (a : Word) :
    (s.mapUnread o b id).push a = (s.push a).map (State.mapUnread o b id) := by
  cases hp : s.push a with
  | none => exact (State.push_eq_none _).mpr (s.push_eq_none.mp hp)
  | some q =>
    obtain ⟨hs, ht⟩ := s.push_eq_some.mp hp
    exact (State.push_eq_some _).mpr ⟨hs, congrArg (State.mapUnread o b id) ht⟩

/-- RET and CALL do the same with opcode and ST changed, and keep the change. -/
theorem exec_stack_mapUnread {ins : Instr} (s : State) (h : ins = .ret ∨ ∃ nnn, ins = .call nnn) :
    exec ins (s.mapUnread o b id) = mapNext (State.mapUnread o b id) (exec ins s) := by
  obtain rfl | ⟨nnn, rfl⟩ := h
  · simp only [exec, execRet, State.pop_mapUnread]
    cases s.pop <;> rfl
  · simp only [exec, execCall, State.push_mapUnread]
    rw [show (s.mapUnread o b id).pc = s.pc from rfl]
    cases s.push s.pc <;> rfl

/-- Every instruction but LD ST, Vx does the same with opcode and ST changed, and keeps the change. -/
theorem exec_mapUnread_id {ins : Instr} (s : State) (hst : ∀ x, ins ≠ .ldStVx x) :
    exec ins (s.mapUnread o b id) = mapNext (State.mapUnread o b id) (exec ins s) := by
  by_cases h : ins = .ret ∨ ∃ nnn, ins = .call nnn
  · exact exec_stack_mapUnread o b s h
  · exact exec_mapUnread o b id s hst (fun hr => h (.inl hr)) fun nnn hc => h (.inr ⟨nnn, hc⟩)

/-- Settles O18: the fetch writes opcode, which is in no instruction's frame and is unread. -/
theorem opcodeRegisterIsNeverRead : Obligations.OpcodeRegisterIsNeverRead := by
  refine ⟨fun s t h => ?_, fun ins s w => ?_⟩
  · exact step_unchanged_since_fetch (p := .opcode) h fun ins _ => not_mayWrite_opcode ins
  · by_cases hst : ∃ x, ins = .ldStVx x
    · obtain ⟨x, rfl⟩ := hst; rfl
    · exact exec_mapUnread_id (fun _ => w) id s fun x hx => hst ⟨x, hx⟩

/-- Settles O19: ST is unread, and LD ST, Vx overwrites it. -/
theorem soundTimerIsNeverRead : Obligations.SoundTimerIsNeverRead :=
  fun _ s b => ⟨fun hst => exec_mapUnread_id id (fun _ => b) s hst, fun _ hx => by rw [hx]; rfl⟩

/-! ### The stack entries that are not in use (10_state.md R24) -/

section Stack

variable {entries : Vector Word 16} (agree : ∀ j : Fin 16, j.val < s.sp.val → entries[j.val] = s.stack[j.val])
include agree

/-- RET pops an entry below sp, which both stacks share. -/
theorem exec_ret_with_entries (h : exec .ret s = .next t) :
    exec .ret { s with stack := entries } = .next { t with stack := entries } ∧
      ∀ j : Fin 16, j.val < t.sp.val → entries[j.val] = t.stack[j.val] := by
  obtain ⟨a, u, hu, rfl⟩ := exec_ret_eq_next.mp h
  obtain ⟨hs, rfl, rfl⟩ := s.pop_eq_some.mp hu
  have top := agree ⟨s.sp.val - 1, by omega⟩ (by simp only; omega)
  refine ⟨exec_ret_eq_next.mpr ⟨_, _, (State.pop_eq_some _).mpr ⟨hs, rfl, rfl⟩, ?_⟩, fun j hj => agree j ?_⟩
  · simp only at top
    simp only [State.setPc, top]
  · simp only [State.setPc_sp] at hj; omega

/-- CALL pushes the same entry at the same place on both stacks. -/
theorem exec_call_with_entries {nnn : Addr} (h : exec (.call nnn) s = .next t) :
    ∃ after : Vector Word 16, exec (.call nnn) { s with stack := entries } = .next { t with stack := after } ∧
      ∀ j : Fin 16, j.val < t.sp.val → after[j.val] = t.stack[j.val] := by
  obtain ⟨u, hu, rfl⟩ := exec_call_eq_next.mp h
  obtain ⟨hs, rfl⟩ := s.push_eq_some.mp hu
  refine ⟨entries.set s.sp.val s.pc hs,
    exec_call_eq_next.mpr ⟨_, (State.push_eq_some _).mpr ⟨hs, rfl⟩, rfl⟩, fun j hj => ?_⟩
  simp only [State.setPc_sp, State.setPc_stack, Vector.getElem_set] at hj ⊢
  split
  · rfl
  · exact agree j (by omega)

/-- Any other instruction leaves sp and every entry of both stacks as they are. -/
theorem exec_with_entries {ins : Instr} (hret : ins ≠ .ret) (hcall : ∀ nnn, ins ≠ .call nnn)
    (h : exec ins s = .next t) :
    exec ins { s with stack := entries } = .next { t with stack := entries } ∧
      ∀ j : Fin 16, j.val < t.sp.val → entries[j.val] = t.stack[j.val] := by
  have sp : t.sp = s.sp := exec_changesOnly h .sp fun hw => by
    obtain hr | ⟨nnn, hc⟩ := mayWrite_sp.mp hw
    · exact hret hr
    · exact hcall nnn hc
  have stack (j : Fin 16) : t.stack[j.val] = s.stack[j.val] := exec_changesOnly h (.stack j) fun hw => by
    obtain ⟨-, nnn, hc⟩ := mayWrite_stack.mp hw
    exact hcall nnn hc
  refine ⟨?_, fun j hj => by rw [stack, agree j (sp ▸ hj)]⟩
  by_cases hst : ∃ x, ins = .ldStVx x
  · obtain ⟨x, rfl⟩ := hst; cases h; rfl
  · have run := exec_mapUnread id id (fun _ => entries) s (fun x hx => hst ⟨x, hx⟩) hret hcall
    rw [h] at run
    exact run

end Stack

/-- Settles O20: RET reads below sp, CALL writes at sp, and no other instruction touches the stack. -/
theorem entriesAboveTheStackTopAreNeverRead : Obligations.EntriesAboveTheStackTopAreNeverRead := by
  intro ins s t entries agree h
  by_cases hret : ins = .ret
  · subst hret; exact ⟨entries, exec_ret_with_entries agree h⟩
  by_cases hcall : ∃ nnn, ins = .call nnn
  · obtain ⟨nnn, rfl⟩ := hcall; exact exec_call_with_entries agree h
  · exact ⟨entries, exec_with_entries agree hret (fun nnn hc => hcall ⟨nnn, hc⟩) h⟩

end Sys2Proof.Machine
end

section
/-! SUPPORT. The canonical form of memory determines it by its reads (log entry 4), and the contents at reset. -/

namespace Sys2Proof.Machine

/-- In canonical form a listed address reads as its cell's byte. -/
theorem Memory.read_of_mem {m : Memory} (h : m.wf) {c : Host.Cell} (hc : c ∈ m) : m.read c.1 = c.2 := by
  obtain ⟨sorted, -⟩ := h
  induction m with
  | nil => cases hc
  | cons e m ih =>
    rw [List.pairwise_cons] at sorted
    rw [Memory.read_cons]
    rcases List.mem_cons.mp hc with rfl | hm
    · exact if_pos rfl
    · rw [if_neg (Nat.ne_of_lt (sorted.1 c hm)), ih hm sorted.2]

/-- In canonical form the cells are exactly the addresses of the 4096 bytes that read other than their reset contents. -/
theorem Memory.mem_iff_read {m : Memory} (h : m.wf) (c : Host.Cell) :
    c ∈ m ↔ c.1 ≤ lastAddress ∧ m.read c.1 = c.2 ∧ c.2 ≠ resetByte c.1 := by
  refine ⟨fun hc => ⟨(h.2 c hc).1, Memory.read_of_mem h hc, (h.2 c hc).2⟩, fun ⟨_, hr, hne⟩ => ?_⟩
  by_contra hc
  refine hne (hr ▸ Memory.read_of_not_listed m c.1 fun d hd hdc => hc ?_)
  have hdr : d.2 = c.2 := by rw [← Memory.read_of_mem h hd, hdc, hr]
  rwa [← Prod.ext hdc hdr]

theorem Memory.nodup_of_wf {m : Memory} (h : m.wf) : m.Nodup :=
  List.Pairwise.imp (fun hlt he => Nat.ne_of_lt hlt (congrArg Prod.fst he)) h.1

/-- Settles O25: both lists are sorted by address and have the same cells, those whose reads differ from the reset contents. -/
theorem equalReadsMeanEqualMemories : Obligations.EqualReadsMeanEqualMemories := by
  intro m n hm hn hr
  have cells (c : Host.Cell) : c ∈ m ↔ c ∈ n := by
    rw [Memory.mem_iff_read hm, Memory.mem_iff_read hn]
    exact and_congr_right fun ha => by rw [hr c.1 ha]
  have perm : List.Perm m n :=
    (List.perm_ext_iff_of_nodup (Memory.nodup_of_wf hm) (Memory.nodup_of_wf hn)).mpr cells
  exact perm.eq_of_pairwise (fun c d _ _ hcd hdc => absurd hdc (Nat.lt_asymm hcd)) hm.1 hn.1

/-! ### Reset (10_state.md R36) -/

theorem resetByte_below_font {a : Nat} (h : a < 0x050) : resetByte a = 0 :=
  if_neg (Nat.not_le_of_lt h)

theorem fontBytes_length : fontBytes.length = 80 := rfl

theorem resetByte_font (k : Fin 80) : some (resetByte (0x050 + k.val)) = fontBytes[k.val]? := by
  rw [resetByte, fontBase, if_pos (Nat.le_add_right _ _), Nat.add_sub_cancel_left, List.getD_eq_getElem?_getD,
    List.getElem?_eq_getElem (by rw [fontBytes_length]; exact k.isLt)]
  rfl

theorem resetByte_above_font {a : Nat} (h : 0x0A0 ≤ a) : resetByte a = 0 := by
  rw [resetByte, fontBase, if_pos (by omega), List.getD_eq_default _ _ (by rw [fontBytes_length]; omega)]

/-- The operation `reset` leaves the reset state but for the draw counter (log entry 14). -/
theorem changesOnly_reset (s : State) : ChangesOnly State.reset (transact .reset s).1 (· ∈ [Part.draws]) := by
  intro p hp
  cases p with
  | draws => exact absurd (by simp) hp
  | _ => rfl

/-- Settles O26: the registers by their definition, memory by what the empty list reads as. -/
theorem resetLeavesTheTabledValues : Obligations.ResetLeavesTheTabledValues :=
  ⟨by decide, rfl, rfl, by decide, rfl, rfl, rfl, Gfx.pixel_clear, by decide, rfl, rfl, rfl,
    fun _ => resetByte_below_font, resetByte_font, fun _ h _ => resetByte_above_font h, changesOnly_reset⟩

end Sys2Proof.Machine
end

section
/-! SUPPORT. What is read back from stored bytes (20_memory.md R43, R51). -/

namespace Sys2Proof.Machine

variable {s t : State}

/-- A byte just stored is what is read there. -/
theorem State.storeBytes_readByte (s : State) (a : Nat) {ds : List Byte} {k : Nat} (hk : k < ds.length) :
    (s.storeBytes a ds).readByte (a + k) = ds[k] := by
  have stored : a ≤ a + k ∧ a + k - a < ds.length := by omega
  rw [State.readByte, State.storeBytes_mem, Memory.read_writeBytes, dif_pos stored]
  simp only [Nat.add_sub_cancel_left]

/-- Register k of a completed LD [I], Vx is read back k bytes above I (43_index_memory.md R105). -/
theorem exec_stRegs_readByte {x k : RegIdx} (h : exec (.stRegs x) s = .next t) (hk : k ≤ x) :
    t.readByte (s.i.toNat + k.val) = s.getV k := by
  obtain ⟨-, rfl⟩ := exec_stRegs_eq_next.mp h
  have stored : k.val < (s.regsUpTo x).length := by
    rw [State.regsUpTo_length]
    exact Nat.lt_succ_of_le hk
  rw [State.indexAddress, State.storeBytes_readByte s _ stored, State.regsUpTo_getElem]

/-- Settles O21: the fetch reads the two registers back, the one at pc as the high byte. -/
theorem storedBytesAreFetched : Obligations.StoredBytesAreFetched := by
  intro x k k' s t h hk' hx hpc
  have hk : k ≤ x := Nat.le_trans (by omega : k.val ≤ k'.val) hx
  have following : s.i.toNat + k.val + 1 = s.i.toNat + k'.val := by rw [hk', Nat.add_assoc]
  rw [State.fetchWord, wordOfBytes_toNat, hpc, following, exec_stRegs_readByte h hk, exec_stRegs_readByte h hx]

end Sys2Proof.Machine
end

section
/-! SUPPORT. A word from its fields, and what a mask keeps of them (30_encoding.md R55, R56). -/

namespace Sys2Proof.Machine

variable {w : Word}

theorem word_eq_formatNNN (w : Word) : w = formatNNN (fieldClass w) (fieldNNN w) := by
  rw [formatNNN, fieldClass, fieldNNN,
    BitVec.extractLsb'_append_extractLsb'_eq_extractLsb' (show (12 : Nat) = 0 + 12 from rfl)]
  exact BitVec.extractLsb'_eq_self.symm

theorem fieldKK_eq_append (w : Word) : fieldKK w = fieldYBits w ++ fieldNBits w := by
  rw [fieldKK, fieldYBits, fieldNBits,
    BitVec.extractLsb'_append_extractLsb'_eq_extractLsb' (show (4 : Nat) = 0 + 4 from rfl)]

theorem word_eq_formatXKK (w : Word) : w = formatXKK (fieldClass w) (fieldX w) (fieldKK w) := by
  rw [formatXKK, fieldClass, fieldX, fieldKK, nibbleOf_regOfNibble,
    BitVec.extractLsb'_append_extractLsb'_eq_extractLsb' (show (12 : Nat) = 8 + 4 from rfl),
    BitVec.extractLsb'_append_extractLsb'_eq_extractLsb' (show (8 : Nat) = 0 + 8 from rfl)]
  exact BitVec.extractLsb'_eq_self.symm

/-- The low byte is what its two nibbles say. -/
theorem fieldKK_eq_iff {y n : BitVec 4} : fieldKK w = y ++ n ↔ fieldYBits w = y ∧ fieldNBits w = n := by
  rw [fieldKK_eq_append]
  refine ⟨fun h => ⟨?_, ?_⟩, fun ⟨hy, hn⟩ => by rw [hy, hn]⟩
  · rw [← BitVec.extractLsb'_append_eq_left (a := y) (b := n), ← h, BitVec.extractLsb'_append_eq_left]
  · rw [← BitVec.extractLsb'_append_eq_right (a := y) (b := n), ← h, BitVec.extractLsb'_append_eq_right]

/-- Where kk is a discriminant of two nibbles. -/
theorem formatXYN_eq_formatXKK (c : BitVec 4) (x y n : Fin 16) :
    formatXYN c x y n = formatXKK c x (nibbleOf y ++ nibbleOf n) := by
  rw [word_eq_formatXKK (formatXYN c x y n), fieldKK_eq_append, fieldClass_formatXYN, fieldX_formatXYN,
    fieldYBits_formatXYN, fieldNBits_formatXYN]

theorem fieldNNN_setWidth (w : Word) : (fieldNNN w).setWidth 8 = fieldKK w := by
  rw [← fieldKK_formatNNN (fieldClass w), ← word_eq_formatNNN]

/-! ### Under a mask -/

theorem formatXYN_and_FFF0 (c : BitVec 4) (x y n : Fin 16) :
    formatXYN c x y n &&& 0xFFF0#16 = formatXYN c x y 0 := by
  apply BitVec.eq_of_getLsbD_eq; intro i hi
  simp only [formatXYN, BitVec.getLsbD_and, BitVec.getLsbD_append]
  interval_cases i <;> simp [nibbleOf]

theorem formatXYN_and_FF0F (c : BitVec 4) (x y n : Fin 16) :
    formatXYN c x y n &&& 0xFF0F#16 = formatXYN c x 0 n := by
  apply BitVec.eq_of_getLsbD_eq; intro i hi
  simp only [formatXYN, BitVec.getLsbD_and, BitVec.getLsbD_append]
  interval_cases i <;> simp [nibbleOf]

/-- A field that lies under a mask is read off the masked word. -/
theorem extractLsb'_eq_of_and_eq {m b : Word} {start len : Nat} (h : w &&& m = b)
    (hm : m.extractLsb' start len = BitVec.allOnes len) : w.extractLsb' start len = b.extractLsb' start len := by
  rw [← h, BitVec.extractLsb'_and, hm, BitVec.and_allOnes]

end Sys2Proof.Machine
end

section
/-! SUPPORT. The decoder against the encoder, in both directions (30_encoding.md R56, R58, R60). -/

namespace Sys2Proof.Machine

variable {w : Word} {ins : Instr}

theorem decode_encode (h : ins.wellFormed = true) : decode (encode ins) = .ok ins := by
  cases ins with
  | cls | ret => simp [encode, decode, decodeClass0]
  | sys nnn =>
    obtain ⟨hcls, hret⟩ : nnn.setWidth 8 ≠ 0xE0#8 ∧ nnn.setWidth 8 ≠ 0xEE#8 := by
      simpa [Instr.wellFormed, sysOperandOk] using h
    simp [encode, decode, decodeClass0, hcls, hret]
  | jp | call | seImm | sneImm | seReg | ldImm | addImm | sneReg | ldI | jpV0 | rnd | drw =>
    simp [encode, decode]
  | ldReg | orReg | andReg | xorReg | addReg | sub | shr | subn | shl =>
    simp [encode, decode, decodeClass8, nibbleOf_toNat]
  | skp | sknp => simp [encode, decode, decodeClassE]
  | ldVxDt | ldVxK | ldDtVx | ldStVx | addI | ldF | ldB | stRegs | ldRegs =>
    simp [encode, decode, decodeClassF]

/-- Settles O1: the two bytes are the encoded word again, and the decoder reads that back. -/
theorem decodeOfEncodeIsTheInstruction : Obligations.DecodeOfEncodeIsTheInstruction := by
  intro ins rest h
  rw [decodeBytes, wordOfBytes_highByte_lowByte, decode_encode h]
  rfl

/-! ### A decoded word is the encoded one, but for the ignored bits (R56, R60) -/

/-- `w` is a word of the well-formed instruction `ins`: it has the encoding's bits where `ins` does not ignore them. -/
def IsWordOf (w : Word) (ins : Instr) : Prop :=
  ins.wellFormed = true ∧ w &&& ins.careMask = encode ins &&& ins.careMask

theorem IsWordOf.of_eq_encode (hwf : ins.wellFormed = true) (h : w = encode ins) : IsWordOf w ins :=
  ⟨hwf, congrArg (· &&& ins.careMask) h⟩

/-- Layout NNN: the class and nnn make up the word. -/
theorem IsWordOf.of_nnn {c : BitVec 4} (hc : (fieldClass w).toNat = c.toNat) (hwf : ins.wellFormed = true)
    (he : encode ins = formatNNN c (fieldNNN w)) : IsWordOf w ins :=
  .of_eq_encode hwf (by rw [he, ← BitVec.eq_of_toNat_eq hc, ← word_eq_formatNNN])

/-- Layouts XKK and XD, and no bit ignored: the class, x and kk make up the word. -/
theorem IsWordOf.of_xkk {c : BitVec 4} {kk : Byte} (hc : (fieldClass w).toNat = c.toNat) (hkk : fieldKK w = kk)
    (hwf : ins.wellFormed = true) (he : encode ins = formatXKK c (fieldX w) kk) : IsWordOf w ins :=
  .of_eq_encode hwf (by rw [he, ← BitVec.eq_of_toNat_eq hc, ← hkk, ← word_eq_formatXKK])

/-- Layout XYN, and no bit ignored: the class, x, y and n make up the word. -/
theorem IsWordOf.of_xyn {c : BitVec 4} {n : Fin 16} (hc : (fieldClass w).toNat = c.toNat)
    (hn : (fieldNBits w).toNat = n.val) (hwf : ins.wellFormed = true)
    (he : encode ins = formatXYN c (fieldX w) (fieldY w) n) : IsWordOf w ins := by
  have hn' : fieldN w = n := Fin.ext hn
  exact .of_eq_encode hwf (by rw [he, ← BitVec.eq_of_toNat_eq hc, ← hn', ← word_eq_formatXYN])

/-- x ignored (CLS, RET). -/
theorem IsWordOf.of_kk {c : BitVec 4} {x : Fin 16} {kk : Byte} (hc : (fieldClass w).toNat = c.toNat)
    (hkk : fieldKK w = kk) (hwf : ins.wellFormed = true) (hm : ins.careMask = 0xF0FF#16)
    (he : encode ins = formatXKK c x kk) : IsWordOf w ins := by
  refine ⟨hwf, ?_⟩
  rw [hm, he, formatXKK_and_F0FF, word_eq_formatXKK w, formatXKK_and_F0FF, hkk, BitVec.eq_of_toNat_eq hc]

/-- y ignored (SHR, SHL). -/
theorem IsWordOf.of_xn {c : BitVec 4} {y n : Fin 16} (hc : (fieldClass w).toNat = c.toNat)
    (hn : (fieldNBits w).toNat = n.val) (hwf : ins.wellFormed = true) (hm : ins.careMask = 0xFF0F#16)
    (he : encode ins = formatXYN c (fieldX w) y n) : IsWordOf w ins := by
  have hn' : fieldN w = n := Fin.ext hn
  refine ⟨hwf, ?_⟩
  rw [hm, he, formatXYN_and_FF0F]
  conv_lhs => rw [word_eq_formatXYN w, formatXYN_and_FF0F, hn', BitVec.eq_of_toNat_eq hc]

/-- n ignored (5xyn, 9xyn, and Fx2n, Fx3n, Fx5n, Fx6n, where y is a discriminant). -/
theorem IsWordOf.of_xy {c : BitVec 4} {y n : Fin 16} (hc : (fieldClass w).toNat = c.toNat)
    (hy : fieldY w = y) (hwf : ins.wellFormed = true) (hm : ins.careMask = 0xFFF0#16)
    (he : encode ins = formatXYN c (fieldX w) y n) : IsWordOf w ins := by
  refine ⟨hwf, ?_⟩
  rw [hm, he, formatXYN_and_FFF0]
  conv_lhs => rw [word_eq_formatXYN w, formatXYN_and_FFF0, hy, BitVec.eq_of_toNat_eq hc]

theorem isWordOf_of_decodeClass0 (hc : (fieldClass w).toNat = 0x0) (h : decodeClass0 w = .ok ins) : IsWordOf w ins := by
  unfold decodeClass0 at h
  split at h
  · next hkk => cases h; exact .of_kk (c := 0x0) hc hkk rfl rfl rfl
  · next hcls =>
    split at h
    · next hkk => cases h; exact .of_kk (c := 0x0) hc hkk rfl rfl rfl
    · next hret =>
      cases h
      refine .of_nnn (c := 0x0) hc ?_ rfl
      simp [Instr.wellFormed, sysOperandOk, fieldNNN_setWidth, hcls, hret]

theorem isWordOf_of_decodeClass8 (hc : (fieldClass w).toNat = 0x8) (h : decodeClass8 w = .ok ins) : IsWordOf w ins := by
  unfold decodeClass8 at h
  split at h <;> cases h
  · next hn => exact .of_xyn (c := 0x8) (n := 0x0) hc hn rfl rfl
  · next hn => exact .of_xyn (c := 0x8) (n := 0x1) hc hn rfl rfl
  · next hn => exact .of_xyn (c := 0x8) (n := 0x2) hc hn rfl rfl
  · next hn => exact .of_xyn (c := 0x8) (n := 0x3) hc hn rfl rfl
  · next hn => exact .of_xyn (c := 0x8) (n := 0x4) hc hn rfl rfl
  · next hn => exact .of_xyn (c := 0x8) (n := 0x5) hc hn rfl rfl
  · next hn => exact .of_xn (c := 0x8) (n := 0x6) hc hn rfl rfl rfl
  · next hn => exact .of_xyn (c := 0x8) (n := 0x7) hc hn rfl rfl
  · next hn => exact .of_xn (c := 0x8) (n := 0xE) hc hn rfl rfl rfl

theorem isWordOf_of_decodeClassE (hc : (fieldClass w).toNat = 0xE) (h : decodeClassE w = .ok ins) : IsWordOf w ins := by
  unfold decodeClassE at h
  split at h
  · next hkk => cases h; exact .of_xkk (c := 0xE) hc hkk rfl rfl
  · split at h
    · next hkk => cases h; exact .of_xkk (c := 0xE) hc hkk rfl rfl
    · cases h

/-- Fxyn with y and n both discriminants. -/
theorem IsWordOf.of_classF_xd {y n : BitVec 4} (hc : (fieldClass w).toNat = 0xF) (hy : (fieldYBits w).toNat = y.toNat)
    (hn : (fieldNBits w).toNat = n.toNat) (hwf : ins.wellFormed = true)
    (he : encode ins = formatXKK 0xF (fieldX w) (y ++ n)) : IsWordOf w ins :=
  .of_xkk (c := 0xF) hc (fieldKK_eq_iff.mpr ⟨BitVec.eq_of_toNat_eq hy, BitVec.eq_of_toNat_eq hn⟩) hwf he

/-- Fxyn with y the only discriminant. -/
theorem IsWordOf.of_classF_xy {y n : Fin 16} (hc : (fieldClass w).toNat = 0xF) (hy : (fieldYBits w).toNat = y.val)
    (hwf : ins.wellFormed = true) (hm : ins.careMask = 0xFFF0#16)
    (he : encode ins = formatXKK 0xF (fieldX w) (nibbleOf y ++ nibbleOf n)) : IsWordOf w ins :=
  .of_xy (c := 0xF) hc (Fin.ext hy) hwf hm (he.trans (formatXYN_eq_formatXKK ..).symm)

theorem isWordOf_of_decodeClassF (hc : (fieldClass w).toNat = 0xF) (h : decodeClassF w = .ok ins) : IsWordOf w ins := by
  unfold decodeClassF at h
  split at h <;> cases h
  · next hy hn => exact .of_classF_xd (y := 0x0) (n := 0x7) hc hy hn rfl rfl
  · next hy hn => exact .of_classF_xd (y := 0x0) (n := 0xA) hc hy hn rfl rfl
  · next hy hn => exact .of_classF_xd (y := 0x1) (n := 0x5) hc hy hn rfl rfl
  · next hy hn => exact .of_classF_xd (y := 0x1) (n := 0x8) hc hy hn rfl rfl
  · next hy hn => exact .of_classF_xd (y := 0x1) (n := 0xE) hc hy hn rfl rfl
  · next hy => exact .of_classF_xy (y := 0x2) (n := 0x9) hc hy rfl rfl rfl
  · next hy => exact .of_classF_xy (y := 0x3) (n := 0x3) hc hy rfl rfl rfl
  · next hy => exact .of_classF_xy (y := 0x5) (n := 0x5) hc hy rfl rfl rfl
  · next hy => exact .of_classF_xy (y := 0x6) (n := 0x5) hc hy rfl rfl rfl

theorem isWordOf_of_decode (h : decode w = .ok ins) : IsWordOf w ins := by
  unfold decode at h
  split at h
  · next hc => exact isWordOf_of_decodeClass0 hc h
  · next hc => cases h; exact .of_nnn (c := 0x1) hc rfl rfl
  · next hc => cases h; exact .of_nnn (c := 0x2) hc rfl rfl
  · next hc => cases h; exact .of_xkk (c := 0x3) hc rfl rfl rfl
  · next hc => cases h; exact .of_xkk (c := 0x4) hc rfl rfl rfl
  · next hc => cases h; exact .of_xy (c := 0x5) hc rfl rfl rfl rfl
  · next hc => cases h; exact .of_xkk (c := 0x6) hc rfl rfl rfl
  · next hc => cases h; exact .of_xkk (c := 0x7) hc rfl rfl rfl
  · next hc => exact isWordOf_of_decodeClass8 hc h
  · next hc => cases h; exact .of_xy (c := 0x9) hc rfl rfl rfl rfl
  · next hc => cases h; exact .of_nnn (c := 0xA) hc rfl rfl
  · next hc => cases h; exact .of_nnn (c := 0xB) hc rfl rfl
  · next hc => cases h; exact .of_xkk (c := 0xC) hc rfl rfl rfl
  · next hc => cases h; exact .of_xyn (c := 0xD) hc rfl rfl rfl
  · next hc => exact isWordOf_of_decodeClassE hc h
  · refine isWordOf_of_decodeClassF ?_ h
    have := (fieldClass w).isLt
    simp only [imp_false] at *
    omega

/-- Settles O2: the word is one of the instruction's own. -/
theorem decodedWordIsTheEncodedOne : Obligations.DecodedWordIsTheEncodedOne :=
  fun _ _ h => isWordOf_of_decode h

end Sys2Proof.Machine
end

section
/-! SUPPORT. Which words decode to nothing (30_encoding.md R61). -/

namespace Sys2Proof.Machine

variable {w : Word}

theorem decodeClass0_ne_error (w : Word) : ¬ ∃ e, decodeClass0 w = .error e := by
  unfold decodeClass0
  split
  · simp
  · split <;> simp

theorem decodeClass8_eq_error_iff :
    (∃ e, decodeClass8 w = .error e) ↔ 8 ≤ (fieldNBits w).toNat ∧ (fieldNBits w).toNat ≠ 0xE := by
  unfold decodeClass8
  split
  case h_10 =>
    have := (fieldNBits w).isLt
    simp only [imp_false] at *
    simp only [Except.error.injEq, exists_eq', true_iff]
    omega
  all_goals next hn => simp [hn]

theorem decodeClassE_eq_error_iff :
    (∃ e, decodeClassE w = .error e) ↔
      ¬ ((fieldYBits w).toNat = 0x9 ∧ (fieldNBits w).toNat = 0xE) ∧
      ¬ ((fieldYBits w).toNat = 0xA ∧ (fieldNBits w).toNat = 0x1) := by
  have hskp : fieldKK w = 0x9E#8 ↔ (fieldYBits w).toNat = 0x9 ∧ (fieldNBits w).toNat = 0xE := by
    simpa [BitVec.toNat_eq] using fieldKK_eq_iff (w := w) (y := 0x9#4) (n := 0xE#4)
  have hsknp : fieldKK w = 0xA1#8 ↔ (fieldYBits w).toNat = 0xA ∧ (fieldNBits w).toNat = 0x1 := by
    simpa [BitVec.toNat_eq] using fieldKK_eq_iff (w := w) (y := 0xA#4) (n := 0x1#4)
  rw [← hskp, ← hsknp]
  by_cases h : fieldKK w = 0x9E#8 <;> by_cases h' : fieldKK w = 0xA1#8 <;> simp [decodeClassE, h, h']

theorem decodeClassF_eq_error_iff :
    (∃ e, decodeClassF w = .error e) ↔
      ((fieldYBits w).toNat = 0 ∧ (fieldNBits w).toNat ≠ 0x7 ∧ (fieldNBits w).toNat ≠ 0xA) ∨
      ((fieldYBits w).toNat = 1 ∧ (fieldNBits w).toNat ≠ 0x5 ∧ (fieldNBits w).toNat ≠ 0x8 ∧
        (fieldNBits w).toNat ≠ 0xE) ∨
      (fieldYBits w).toNat = 4 ∨ 7 ≤ (fieldYBits w).toNat := by
  unfold decodeClassF
  split
  case h_10 =>
    have := (fieldYBits w).isLt
    simp only [imp_false] at *
    simp only [Except.error.injEq, exists_eq', true_iff]
    omega
  all_goals next hn => simp [*]

/-- Only the decoders of the classes 0x8, 0xE and 0xF reject a word (R60, R61). -/
theorem decode_eq_error_iff :
    (∃ e, decode w = .error e) ↔
      ((fieldClass w).toNat = 0x8 ∧ ∃ e, decodeClass8 w = .error e) ∨
      ((fieldClass w).toNat = 0xE ∧ ∃ e, decodeClassE w = .error e) ∨
      ((fieldClass w).toNat = 0xF ∧ ∃ e, decodeClassF w = .error e) := by
  unfold decode
  split
  case h_1 hc => simp [hc, decodeClass0_ne_error]
  case h_16 =>
    have hc : (fieldClass w).toNat = 0xF := by
      have := (fieldClass w).isLt
      simp only [imp_false] at *
      omega
    simp [hc]
  all_goals next hc => simp [hc]

/-- Settles O3: what each of the three class decoders rejects, read off the nibbles of the word. -/
theorem undefinedWordsAreExactlyThoseListed : Obligations.UndefinedWordsAreExactlyThoseListed := by
  intro c x y n
  have hw : wordXYN c.val x.val y.val n.val = formatXYN (nibbleOf c) x y n := by
    rw [← wordXYN_eq, nibbleOf_toNat]
  rw [hw, decode_eq_error_iff, decodeClass8_eq_error_iff, decodeClassE_eq_error_iff, decodeClassF_eq_error_iff]
  simp only [fieldClass_formatXYN, fieldYBits_formatXYN, fieldNBits_formatXYN, nibbleOf_toNat]

end Sys2Proof.Machine
end

section
/-! SUPPORT. The decoder against the rows of the opcode map (30_encoding.md R58, R60). -/

namespace Sys2Proof.Machine

variable {w : Word} {ins : Instr}

/-- The encoded instruction has the bits of its row. -/
theorem encode_and_row_mask : (ins : Instr) → encode ins &&& ins.row.mask = ins.row.bits
  | .cls => Laws.RowBits.cls
  | .ret => Laws.RowBits.ret
  | .sys _ => Laws.RowBits.sys _
  | .jp _ => Laws.RowBits.jp _
  | .call _ => Laws.RowBits.call _
  | .seImm _ _ => Laws.RowBits.seImm _ _
  | .sneImm _ _ => Laws.RowBits.sneImm _ _
  | .seReg _ _ => Laws.RowBits.seReg _ _
  | .ldImm _ _ => Laws.RowBits.ldImm _ _
  | .addImm _ _ => Laws.RowBits.addImm _ _
  | .ldReg _ _ => Laws.RowBits.ldReg _ _
  | .orReg _ _ => Laws.RowBits.orReg _ _
  | .andReg _ _ => Laws.RowBits.andReg _ _
  | .xorReg _ _ => Laws.RowBits.xorReg _ _
  | .addReg _ _ => Laws.RowBits.addReg _ _
  | .sub _ _ => Laws.RowBits.sub _ _
  | .shr _ => Laws.RowBits.shr _
  | .subn _ _ => Laws.RowBits.subn _ _
  | .shl _ => Laws.RowBits.shl _
  | .sneReg _ _ => Laws.RowBits.sneReg _ _
  | .ldI _ => Laws.RowBits.ldI _
  | .jpV0 _ => Laws.RowBits.jpV0 _
  | .rnd _ _ => Laws.RowBits.rnd _ _
  | .drw _ _ _ => Laws.RowBits.drw _ _ _
  | .skp _ => Laws.RowBits.skp _
  | .sknp _ => Laws.RowBits.sknp _
  | .ldVxDt _ => Laws.RowBits.ldVxDt _
  | .ldVxK _ => Laws.RowBits.ldVxK _
  | .ldDtVx _ => Laws.RowBits.ldDtVx _
  | .ldStVx _ => Laws.RowBits.ldStVx _
  | .addI _ => Laws.RowBits.addI _
  | .ldF _ => Laws.RowBits.ldF _
  | .ldB _ => Laws.RowBits.ldB _
  | .stRegs _ => Laws.RowBits.stRegs _
  | .ldRegs _ => Laws.RowBits.ldRegs _

/-- The fixed bits of a row are none of the bits its instruction ignores. -/
theorem careMask_and_row_mask (ins : Instr) : ins.careMask &&& ins.row.mask = ins.row.mask := by
  cases ins <;> (simp only [Instr.careMask, Instr.row]; rfl)

/-- A word of an instruction has the bits of its row. -/
theorem IsWordOf.and_row_mask (h : IsWordOf w ins) : w &&& ins.row.mask = ins.row.bits := by
  obtain ⟨-, hagree⟩ := h
  rw [← encode_and_row_mask, ← careMask_and_row_mask, ← BitVec.and_assoc, ← BitVec.and_assoc, hagree]

/-- A word that has the bits of a row decodes to an instruction of that row, but for the row of SYS. -/
theorem decode_of_row (h : w &&& ins.row.mask = ins.row.bits) (hsys : ins.row ≠ (Instr.sys 0).row) :
    ∃ i, decode w = .ok i ∧ i.row = ins.row := by
  cases ins with
  | sys => exact absurd rfl hsys
  | jp | call | seImm | sneImm | seReg | ldImm | addImm | sneReg | ldI | jpV0 | rnd | drw =>
    simp only [Instr.row] at h
    have hc : fieldClass w = _ := extractLsb'_eq_of_and_eq h rfl
    simp [decode, hc, Instr.row]
  | cls | ret =>
    simp only [Instr.row] at h
    have hc : fieldClass w = _ := extractLsb'_eq_of_and_eq h rfl
    have hkk : fieldKK w = _ := extractLsb'_eq_of_and_eq h rfl
    simp [decode, hc, decodeClass0, hkk, Instr.row]
  | skp | sknp =>
    simp only [Instr.row] at h
    have hc : fieldClass w = _ := extractLsb'_eq_of_and_eq h rfl
    have hkk : fieldKK w = _ := extractLsb'_eq_of_and_eq h rfl
    simp [decode, hc, decodeClassE, hkk, Instr.row]
  | ldReg | orReg | andReg | xorReg | addReg | sub | shr | subn | shl =>
    simp only [Instr.row] at h
    have hc : fieldClass w = _ := extractLsb'_eq_of_and_eq h rfl
    have hn : fieldNBits w = _ := extractLsb'_eq_of_and_eq h rfl
    simp [decode, hc, decodeClass8, hn, Instr.row]
  | ldVxDt | ldVxK | ldDtVx | ldStVx | addI =>
    simp only [Instr.row] at h
    have hc : fieldClass w = _ := extractLsb'_eq_of_and_eq h rfl
    have hy : fieldYBits w = _ := extractLsb'_eq_of_and_eq h rfl
    have hn : fieldNBits w = _ := extractLsb'_eq_of_and_eq h rfl
    simp [decode, hc, decodeClassF, hy, hn, Instr.row]
  | ldF | ldB | stRegs | ldRegs =>
    simp only [Instr.row] at h
    have hc : fieldClass w = _ := extractLsb'_eq_of_and_eq h rfl
    have hy : fieldYBits w = _ := extractLsb'_eq_of_and_eq h rfl
    simp [decode, hc, decodeClassF, hy, Instr.row]

/-- Settles O4: a row other than that of SYS whose bits the word has is the row of the one instruction it decodes to. -/
theorem rowsOfTheOpcodeMapDoNotOverlap : Obligations.RowsOfTheOpcodeMapDoNotOverlap := by
  intro w ins other h
  refine ⟨(isWordOf_of_decode h).and_row_mask, fun hother => ?_⟩
  by_cases hsys : other.row = (Instr.sys 0).row
  · exact .inr hsys
  · obtain ⟨i, hi, hrow⟩ := decode_of_row hother hsys
    have hins : i = ins := by simpa [h] using hi.symm
    exact .inl (hins ▸ hrow.symm)

end Sys2Proof.Machine
end

section
/-! SUPPORT. The instruction cycle around step 5 of R66: what the fetch hands on, and what a fault leaves (40_cycle.md R64 to R71). -/

namespace Sys2Proof.Machine

variable {s t : State}

/-! ### The fetch and the dispatch (R66, R68) -/

/-- A step whose fetched word decodes is that instruction's meaning, whatever it answers. -/
theorem step_of_decode {ins : Instr} (hr : s.run = .running) (hp : s.pc.toNat + 1 ≤ 0xFFF)
    (hd : decode s.fetchWord = .ok ins) : Sys2Proof.Machine.step s = exec ins s.fetched := by
  rw [step_running s hr (s.fetchable_iff.mpr hp), executeWord_ok _ hd]

/-- A step whose fetched word is UNDEFINED ends in the state that the fetch left (R70). -/
theorem step_of_undefined {e : DecodeReject} (hr : s.run = .running) (hp : s.pc.toNat + 1 ≤ 0xFFF)
    (hd : decode s.fetchWord = .error e) : Sys2Proof.Machine.step s = .next s.fetched := by
  rw [step_running s hr (s.fetchable_iff.mpr hp), executeWord_undefined _ hd]

/-- No instruction writes opcode, so it holds the fetched word after the step. -/
theorem step_opcode (h : Sys2Proof.Machine.step s = .next t) : t.opcode = s.fetchWord :=
  step_unchanged_since_fetch (p := .opcode) h fun ins _ => not_mayWrite_opcode ins

theorem fetchWord_toNat (s : State) :
    s.fetchWord.toNat = (s.readByte s.pc.toNat).toNat * 256 + (s.readByte (s.pc.toNat + 1)).toNat :=
  wordOfBytes_toNat _ _

/-! ### The statements -/

/-- Settles O8: opcode keeps the word that the fetch read, and past 0xFFE the fetch itself is the fault. -/
theorem fetchReadsTwoBytesOrFaults : Obligations.FetchReadsTwoBytesOrFaults := by
  refine ⟨fun s t _ _ h => ?_, fun s hr hp => ?_⟩
  · rw [step_opcode h, fetchWord_toNat]
  · have hfault := step_fetch_fault s hr (s.not_fetchable_iff.mpr hp)
    exact ⟨hfault, stepBlock_fault s hfault⟩

/-- Settles O6: the dispatch on a decoded word, and the fields and the frame of the fetch. -/
theorem stepRunsTheDecodedInstruction : Obligations.StepRunsTheDecodedInstruction :=
  fun s _ hr hp hd => ⟨step_of_decode hr hp hd, s.fetched_opcode, s.fetched_pc, s.fetched_redraw, s.fetched_loadOpen,
    changesOnly_fetched s⟩

/-- Settles O7: both kinds of word leave the state as the fetch made it, and the fetch has the effect stated. -/
theorem undefinedWordsAndSysAreNoOps : Obligations.UndefinedWordsAndSysAreNoOps := by
  intro s hr hp hw
  have hstep : Sys2Proof.Machine.step s = .next s.fetched := by
    obtain ⟨e, hd⟩ | ⟨nnn, hd⟩ := hw
    · exact step_of_undefined hr hp hd
    · rw [step_of_decode hr hp hd]; rfl
  exact ⟨s.fetched, hstep, s.fetched_redraw, s.fetched_opcode, s.fetched_pc, changesOnly_fetched s⟩

/-- Settles O9: a Halted step answers its cause, and halting a state again with the cause it has changes nothing. -/
theorem haltedStepReturnsTheSameFault : Obligations.HaltedStepReturnsTheSameFault :=
  fun s _ h => ⟨step_halted s h, stepBlock_halted s h⟩

/-- Settles O10: the fault leaves a Halted state, in which step and tick do nothing; reset ignores the run state. -/
theorem faultingStepCommitsNothing : Obligations.FaultingStepCommitsNothing :=
  fun s cause _ h =>
  ⟨stepBlock_fault s h, stepBlock_halted (s.halt cause) rfl, transact_tick_halted (s.halt cause) rfl, rfl⟩

end Sys2Proof.Machine
end

section
/-! SUPPORT. A word that an instruction encodes to, and the words with an ignored nibble, decode to the instruction. -/

namespace Sys2Proof.Machine

/-- A word written digit by digit decodes to the instruction whose encoding it is (30_encoding.md R58, R60). -/
theorem decode_of_eq_encode {w : Word} {ins : Instr} (hwf : ins.wellFormed = true) (h : w = encode ins) :
    decode w = .ok ins := by
  rw [h, decode_encode hwf]

/-- The x nibble of RET is ignored (D4). -/
theorem decode_ret_word (x : RegIdx) : decode (wordXKK 0x0 x.val 0xEE) = .ok .ret := by
  rw [show wordXKK 0x0 x.val 0xEE = formatXKK 0x0#4 x 0xEE#8 from wordXKK_eq 0x0#4 x 0xEE#8]
  simp [decode, decodeClass0]

/-- The n nibble of SE Vx, Vy is ignored (D6). -/
theorem decode_seReg_word (x y n : Fin 16) : decode (wordXYN 0x5 x.val y.val n.val) = .ok (.seReg x y) := by
  rw [show wordXYN 0x5 x.val y.val n.val = formatXYN 0x5#4 x y n from wordXYN_eq 0x5#4 x y n]
  simp [decode]

/-- The n nibble of SNE Vx, Vy is ignored (D6). -/
theorem decode_sneReg_word (x y n : Fin 16) : decode (wordXYN 0x9 x.val y.val n.val) = .ok (.sneReg x y) := by
  rw [show wordXYN 0x9 x.val y.val n.val = formatXYN 0x9#4 x y n from wordXYN_eq 0x9#4 x y n]
  simp [decode]

/-- The operand of a class-0 word is that of a SYS when its low byte is not that of CLS or RET (41_flow.md R75). -/
theorem sys_wellFormed {nnn : Addr} (hcls : nnn.toNat % 256 ≠ 0xE0) (hret : nnn.toNat % 256 ≠ 0xEE) :
    (Instr.sys nnn).wellFormed = true := by
  simp [Instr.wellFormed, sysOperandOk, BitVec.toNat_eq, hcls, hret]

/-- Settles O5: each of the words is the conventional spelling of its instruction, which the decoder inverts. -/
theorem exampleWordsDecode : Obligations.ExampleWordsDecode := by
  unfold Obligations.ExampleWordsDecode
  and_intros
  all_goals exact decode_of_eq_encode (by decide) (by decide)

end Sys2Proof.Machine
end

section
/-! SUPPORT. The program-counter sequencer (41_flow.md): what its instructions that complete write, and their frames. -/

namespace Sys2Proof.Machine

variable {s : State}

/-! ### Jumps and skips: pc alone -/

theorem zextAddr_toNat (nnn : Addr) : (zextAddr nnn).toNat = nnn.toNat :=
  BitVec.toNat_setWidth_of_le (by decide)

/-- The sum of JP V0 never wraps at 16 bits (R83). -/
theorem zextAddr_add_zextByte_toNat (nnn : Addr) (b : Byte) :
    (zextAddr nnn + zextByte b).toNat = nnn.toNat + b.toNat := by
  have := nnn.isLt
  have := b.isLt
  simp only [zextAddr, zextByte]
  bv_omega

/-- An instruction that answers the state with a new pc changes pc alone. -/
theorem exec_pc_of_setPc {ins : Instr} {a : Word} (h : exec ins s = .next (s.setPc a)) :
    ∃ t, exec ins s = .next t ∧ t.pc = a ∧ ChangesOnly s t (· ∈ [Part.pc]) :=
  ⟨_, h, s.setPc_pc a, (changesOnly_setPc s a).mono fun _ => List.mem_singleton.mpr⟩

/-- An instruction that skips on `c` changes pc alone, by 2 where `c` holds (40_cycle.md R72). -/
theorem exec_pc_of_skipIf {ins : Instr} {c : Bool} (h : exec ins s = .next (s.skipIf c)) :
    ∃ t, exec ins s = .next t ∧ t.pc = (if c then s.pc + 2 else s.pc) ∧ ChangesOnly s t (· ∈ [Part.pc]) :=
  exec_pc_of_setPc (by rw [h, State.skipIf_eq])

/-- A skip on equality, as SE does. -/
theorem exec_pc_of_skipIf_beq {ins : Instr} {a b : Byte} (h : exec ins s = .next (s.skipIf (a == b))) :
    ∃ t, exec ins s = .next t ∧ t.pc = (if a = b then s.pc + 2 else s.pc) ∧ ChangesOnly s t (· ∈ [Part.pc]) := by
  simpa only [beq_iff_eq] using exec_pc_of_skipIf h

/-- A skip on difference, as SNE does. -/
theorem exec_pc_of_skipIf_bne {ins : Instr} {a b : Byte} (h : exec ins s = .next (s.skipIf (a != b))) :
    ∃ t, exec ins s = .next t ∧ t.pc = (if a = b then s.pc else s.pc + 2) ∧ ChangesOnly s t (· ∈ [Part.pc]) := by
  simpa only [bne_iff_ne, ite_not] using exec_pc_of_skipIf h

/-! ### RET and CALL: the stack -/

/-- RET takes the entry under sp, and leaves it where it is (R74). -/
theorem exec_ret_of_entry {j : Fin 16} (h : s.sp.val = j.val + 1) :
    ∃ t, exec .ret s = .next t ∧ t.sp.val = j.val ∧ t.pc = s.stack[j.val] ∧
      ChangesOnly s t (· ∈ [Part.sp, .pc]) := by
  have hpop := s.pop_eq_some.mpr ⟨by omega, rfl, rfl⟩
  have hret := exec_ret_eq_next.mpr ⟨_, _, hpop, rfl⟩
  have htop : s.sp.val - 1 = j.val := by omega
  refine ⟨_, hret, htop, ?_, (exec_changesOnly hret).mono fun p hp => ?_⟩
  · simp only [State.setPc_pc, htop]
  · simpa [mayWrite] using hp

theorem exec_ret_of_empty (h : s.sp.val = 0) : exec .ret s = .fault (.stackUnderflow (s.pc - 2)) := by
  simp only [exec, execRet, s.pop_eq_none.mpr h]
  rfl

/-- CALL puts the address after it at sp, where there is an entry left (R77). -/
theorem exec_call_of_room {nnn : Addr} {j : Fin 16} (h : s.sp.val = j.val) :
    ∃ t, exec (.call nnn) s = .next t ∧ t.stack[j.val] = s.pc ∧ t.sp.val = j.val + 1 ∧ t.pc.toNat = nnn.toNat ∧
      ChangesOnly s t (· ∈ [Part.stack j, .sp, .pc]) := by
  have hpush := (s.push_eq_some (a := s.pc)).mpr ⟨by omega, rfl⟩
  have hcall := exec_call_eq_next (nnn := nnn).mpr ⟨_, hpush, rfl⟩
  refine ⟨_, hcall, ?_, congrArg (· + 1) h, zextAddr_toNat nnn, (exec_changesOnly hcall).mono fun p hp => ?_⟩
  · simp only [State.setPc_stack, h, Vector.getElem_set_self]
  · obtain rfl | rfl | ⟨k, hk, rfl⟩ := hp
    · simp
    · simp
    · simp [Fin.ext (hk.trans h)]

theorem exec_call_of_full {nnn : Addr} (h : s.sp.val = 16) :
    exec (.call nnn) s = .fault (.stackOverflow (s.pc - 2)) := by
  simp only [exec, execCall, s.push_eq_none.mpr h]
  rfl

/-- A CALL that completes had an entry left. -/
theorem sp_lt_of_exec_call {nnn : Addr} {t : State} (h : exec (.call nnn) s = .next t) : s.sp.val < 16 := by
  obtain ⟨u, hu, -⟩ := exec_call_eq_next.mp h
  obtain ⟨hs, -⟩ := s.push_eq_some.mp hu
  exact hs

/-! ### The statements -/

/-- Settles O32: the decoder ignores x, and the pop succeeds exactly above sp = 0. -/
theorem returnPopsItsAddress : Obligations.ReturnPopsItsAddress :=
  ⟨decode_ret_word, fun _ _ h => exec_ret_of_entry h, fun _ h => exec_ret_of_empty h⟩

/-- Settles O33: the word is the encoding of a well-formed SYS, whose meaning is the no-op. -/
theorem sysDoesNothing : Obligations.SysDoesNothing :=
  ⟨fun nnn hcls hret => decode_of_eq_encode (sys_wellFormed hcls hret) (wordNNN_eq 0x0#4 nnn), fun _ _ => rfl⟩

/-- Settles O34: the zero-extended operand is the new pc, and nothing else is written. -/
theorem jumpGoesToItsTarget : Obligations.JumpGoesToItsTarget := by
  refine ⟨fun nnn => decode_of_eq_encode rfl (wordNNN_eq 0x1#4 nnn), fun nnn s => ?_⟩
  obtain ⟨t, ht, hpc, hframe⟩ := exec_pc_of_setPc (s := s) (ins := .jp nnn) rfl
  exact ⟨t, ht, by rw [hpc, zextAddr_toNat], hframe⟩

/-- Settles O35: the push succeeds exactly below sp = 16. -/
theorem callPushesTheReturnAddress : Obligations.CallPushesTheReturnAddress :=
  ⟨fun nnn => decode_of_eq_encode rfl (wordNNN_eq 0x2#4 nnn), fun _ _ _ h => exec_call_of_room h,
    fun _ _ h => exec_call_of_full h⟩

/-- Settles O36: the RET pops the entry that the CALL wrote, and the frames of both keep every entry below it. -/
theorem callThenReturnComesBack : Obligations.CallThenReturnComesBack := by
  intro nnn s t u hcall hsp hentries
  let j : Fin 16 := ⟨s.sp.val, sp_lt_of_exec_call hcall⟩
  obtain ⟨t', hcall', hpushed, hspt, -, hframeCall⟩ := exec_call_of_room (nnn := nnn) (s := s) (j := j) rfl
  obtain rfl : t = t' := Host.Outcome.next.inj (hcall.symm.trans hcall')
  obtain ⟨v, hret, hspv, hpc, hframeRet⟩ := exec_ret_of_entry (s := u) (j := j) (by rw [hsp, hspt])
  refine ⟨v, hret, ?_, Fin.ext hspv, fun k hk => ?_⟩
  · rw [hpc, hentries j (by omega), hpushed]
  · have hkj : k ≠ j := fun e => absurd (congrArg Fin.val e) (Nat.ne_of_lt hk)
    calc v.stack[k.val] = u.stack[k.val] := hframeRet (.stack k) (by simp)
      _ = t.stack[k.val] := hentries k (by rw [hspt]; exact Nat.lt_succ_of_lt hk)
      _ = s.stack[k.val] := hframeCall (.stack k) (by simp [hkj])

/-- Settles O37: the words are the encodings, and the skip on the comparison moves pc alone. -/
theorem skipOnImmediate : Obligations.SkipOnImmediate :=
  ⟨fun x kk => ⟨decode_of_eq_encode rfl (wordXKK_eq 0x3#4 x kk), decode_of_eq_encode rfl (wordXKK_eq 0x4#4 x kk)⟩,
    fun _ _ _ => exec_pc_of_skipIf_beq rfl, fun _ _ _ => exec_pc_of_skipIf_bne rfl⟩

/-- Settles O38: the decoder ignores n, and the skip on the comparison moves pc alone. -/
theorem skipOnRegisters : Obligations.SkipOnRegisters :=
  ⟨fun x y n => ⟨decode_seReg_word x y n, decode_sneReg_word x y n⟩,
    fun _ _ _ => exec_pc_of_skipIf_beq rfl, fun _ _ _ => exec_pc_of_skipIf_bne rfl⟩

/-- Settles O39: the sum fits in 16 bits, and nothing but pc is written. -/
theorem jumpWithOffsetAddsV0 : Obligations.JumpWithOffsetAddsV0 := by
  refine ⟨fun nnn => decode_of_eq_encode rfl (wordNNN_eq 0xB#4 nnn), fun nnn s => ?_⟩
  obtain ⟨t, ht, hpc, hframe⟩ := exec_pc_of_setPc (s := s) (ins := .jpV0 nnn) rfl
  exact ⟨t, ht, by rw [hpc, zextAddr_add_zextByte_toNat], hpc ▸ zextAddr_add_zextByte_le nnn _, hframe⟩

end Sys2Proof.Machine
end

section
/-! SUPPORT. The ALU and the register moves (42_alu.md): what an instruction that writes V[x], or VF and then V[x], leaves
in the registers, and the flags as numbers. -/

namespace Sys2Proof.Machine

variable {s : State}

/-! ### The words whose y is ignored -/

/-- The y nibble of SHR is ignored (R94). -/
theorem decode_shr_word (x y : Fin 16) : decode (wordXYN 0x8 x.val y.val 0x6) = .ok (.shr x) := by
  rw [show wordXYN 0x8 x.val y.val 0x6 = formatXYN 0x8#4 x y 0x6 from wordXYN_eq 0x8#4 x y 0x6]
  simp [decode, decodeClass8, nibbleOf_toNat]

/-- The y nibble of SHL is ignored (R96). -/
theorem decode_shl_word (x y : Fin 16) : decode (wordXYN 0x8 x.val y.val 0xE) = .ok (.shl x) := by
  rw [show wordXYN 0x8 x.val y.val 0xE = formatXYN 0x8#4 x y 0xE from wordXYN_eq 0x8#4 x y 0xE]
  simp [decode, decodeClass8, nibbleOf_toNat]

/-! ### The flags and the results as numbers -/

theorem flagByte_decide_toNat (p : Prop) [Decidable p] : (flagByte (decide p)).toNat = if p then 1 else 0 := by
  by_cases h : p <;> simp [flagByte, h]

theorem carryFlag_toNat (a b : Byte) : (carryFlag a b).toNat = if a.toNat + b.toNat > 255 then 1 else 0 :=
  flagByte_decide_toNat _

theorem greaterFlag_toNat (a b : Byte) : (greaterFlag a b).toNat = if a.toNat > b.toNat then 1 else 0 :=
  flagByte_decide_toNat _

theorem shiftedOutLow_toNat (b : Byte) : (shiftedOutLow b).toNat = b.toNat % 2 := by
  rw [shiftedOutLow, BitVec.toNat_and]
  exact Nat.and_one_is_mod _

theorem shiftedOutHigh_toNat (b : Byte) : (shiftedOutHigh b).toNat = b.toNat / 128 := by
  have hb := b.isLt
  calc (shiftedOutHigh b).toNat = (b >>> 7).toNat % 2 := shiftedOutLow_toNat (b >>> 7)
    _ = b.toNat / 128 % 2 := by rw [BitVec.toNat_ushiftRight, Nat.shiftRight_eq_div_pow]
    _ = b.toNat / 128 := by omega

theorem byte_sub_toNat (a b : Byte) : (a - b).toNat = (a.toNat + 256 - b.toNat) % 256 := by
  bv_omega

theorem byte_ushiftRight_one_toNat (b : Byte) : (b >>> 1).toNat = b.toNat / 2 := by
  rw [BitVec.toNat_ushiftRight, Nat.shiftRight_eq_div_pow, Nat.pow_one]

theorem byte_shiftLeft_one_toNat (b : Byte) : (b <<< 1).toNat = b.toNat * 2 % 256 := by
  rw [BitVec.toNat_shiftLeft, Nat.shiftLeft_eq, Nat.pow_one]

/-! ### V[x] alone, and VF before V[x] -/

/-- An operand that is VF reads as the flag just written (00_scope.md R12; R99). -/
theorem getV_setFlag_toNat (s : State) (r : RegIdx) (f : Byte) :
    ((s.setFlag f).getV r).toNat = if r = 15 then f.toNat else (s.getV r).toNat := by
  rw [State.getV_setFlag, apply_ite BitVec.toNat]

/-- An instruction that answers the state with a new V[x] writes no flag. -/
theorem exec_v_of_setV {ins : Instr} {x : RegIdx} {b : Byte} (h : exec ins s = .next (s.setV x b)) :
    ∃ t, exec ins s = .next t ∧ t.getV x = b ∧ ChangesOnly s t (· ∈ [Part.v x]) :=
  ⟨_, h, by simp, (changesOnly_setV s x b).mono fun _ => List.mem_singleton.mpr⟩

/-- An instruction that writes the flag and then V[x]: for x = 0xF the second write overwrites the first (R92, R99). -/
theorem exec_v_of_setFlag_setV {ins : Instr} {x : RegIdx} {f b : Byte}
    (h : exec ins s = .next ((s.setFlag f).setV x b)) :
    ∃ t, exec ins s = .next t ∧ t.getV x = b ∧ (x ≠ 15 → t.getV 15 = f) ∧
      ChangesOnly s t (· ∈ [Part.v x, .v 15]) :=
  ⟨_, h, by simp, fun hx => by simp [hx.symm], (changesOnly_setFlag_setV s f x b).mono fun _ => List.mem_pair.mpr⟩

/-- SUB and SUBN differ in which operand is the minuend: here V[m], less V[d] (R93, R95). -/
theorem exec_difference_of_setFlag_setV {ins : Instr} {x m d : RegIdx} {u : State}
    (hu : u = s.setFlag (greaterFlag (s.getV m) (s.getV d)))
    (h : exec ins s = .next (u.setV x (u.getV m - u.getV d))) :
    ∃ t f a b, exec ins s = .next t ∧ f = (if (s.getV m).toNat > (s.getV d).toNat then 1 else 0) ∧
      a = (if m = 15 then f else (s.getV m).toNat) ∧ b = (if d = 15 then f else (s.getV d).toNat) ∧
      (t.getV x).toNat = (a + 256 - b) % 256 ∧ (x ≠ 15 → (t.getV 15).toNat = f) ∧
      ChangesOnly s t (· ∈ [Part.v x, .v 15]) := by
  subst hu
  obtain ⟨t, ht, hx, hvf, hframe⟩ := exec_v_of_setFlag_setV h
  exact ⟨t, _, _, _, ht, greaterFlag_toNat _ _, getV_setFlag_toNat s m _, getV_setFlag_toNat s d _,
    by rw [hx, byte_sub_toNat], fun hne => by rw [hvf hne], hframe⟩

/-! ### The statements -/

/-- Settles O42: both operands are read before VF is written, so the sum is that of the registers as they were. -/
theorem addSetsTheCarry : Obligations.AddSetsTheCarry := by
  refine ⟨fun x y => decode_of_eq_encode rfl (wordXYN_eq 0x8#4 x y 0x4), fun x y s => ?_⟩
  obtain ⟨t, ht, hx, hvf, hframe⟩ := exec_v_of_setFlag_setV (s := s) (ins := .addReg x y) rfl
  exact ⟨t, ht, by rw [hx]; exact BitVec.toNat_add _ _,
    fun hne => by rw [hvf hne, carryFlag_toNat], hframe⟩

/-- Settles O43: SUB and SUBN are one difference, with the operands exchanged. -/
theorem subtractSetsNotBorrow : Obligations.SubtractSetsNotBorrow := by
  refine ⟨fun x y => ⟨decode_of_eq_encode rfl (wordXYN_eq 0x8#4 x y 0x5),
    decode_of_eq_encode rfl (wordXYN_eq 0x8#4 x y 0x7)⟩, fun x y s => ?_, fun x y s => ?_⟩
  · exact exec_difference_of_setFlag_setV (m := x) (d := y) rfl rfl
  · obtain ⟨t, f, b, a, ht, hf, hb, ha, hdiff, hvf, hframe⟩ :=
      exec_difference_of_setFlag_setV (s := s) (ins := .subn x y) (x := x) (m := y) (d := x) rfl rfl
    exact ⟨t, f, a, b, ht, hf, ha, hb, hdiff, hvf, hframe⟩

/-- Settles O44: the decoder ignores y, and for x = 0xF the bit just written to VF is what is shifted. -/
theorem shiftsMoveOneBitOut : Obligations.ShiftsMoveOneBitOut := by
  refine ⟨fun x y => ⟨decode_shr_word x y, decode_shl_word x y⟩, fun x s => ?_, fun x s => ?_⟩
  · obtain ⟨t, ht, hx, hvf, hframe⟩ := exec_v_of_setFlag_setV (s := s) (ins := .shr x) rfl
    refine ⟨t, ht, ?_, fun hne => by rw [hvf hne, shiftedOutLow_toNat], hframe⟩
    rw [hx, byte_ushiftRight_one_toNat, getV_setFlag_toNat, shiftedOutLow_toNat]
    split <;> omega
  · obtain ⟨t, ht, hx, hvf, hframe⟩ := exec_v_of_setFlag_setV (s := s) (ins := .shl x) rfl
    refine ⟨t, ht, ?_, fun hne => by rw [hvf hne, shiftedOutHigh_toNat], hframe⟩
    have hv := (s.getV x).isLt
    rw [hx, byte_shiftLeft_one_toNat, getV_setFlag_toNat, shiftedOutHigh_toNat]
    split <;> omega

/-- Settles O40: each is one write to V[x]. -/
theorem movesAndAddImmediate : Obligations.MovesAndAddImmediate := by
  refine ⟨fun x y kk => ⟨decode_of_eq_encode rfl (wordXKK_eq 0x6#4 x kk),
    decode_of_eq_encode rfl (wordXKK_eq 0x7#4 x kk), decode_of_eq_encode rfl (wordXYN_eq 0x8#4 x y 0x0)⟩,
    fun _ _ _ => exec_v_of_setV rfl, fun x kk s => ?_, fun _ _ _ => exec_v_of_setV rfl⟩
  obtain ⟨t, ht, hx, hframe⟩ := exec_v_of_setV (s := s) (ins := .addImm x kk) rfl
  exact ⟨t, ht, by rw [hx]; exact BitVec.toNat_add _ _, hframe⟩

/-- Settles O41: each is one write to V[x], of the bitwise operation on the two registers. -/
theorem logicInstructions : Obligations.LogicInstructions := by
  refine ⟨fun x y => ⟨decode_of_eq_encode rfl (wordXYN_eq 0x8#4 x y 0x1),
    decode_of_eq_encode rfl (wordXYN_eq 0x8#4 x y 0x2), decode_of_eq_encode rfl (wordXYN_eq 0x8#4 x y 0x3)⟩,
    fun x y s => ?_, fun x y s => ?_, fun x y s => ?_⟩
  · obtain ⟨t, ht, hx, hframe⟩ := exec_v_of_setV (s := s) (ins := .orReg x y) rfl
    exact ⟨t, ht, fun b => by rw [hx, BitVec.getLsbD_or], hframe⟩
  · obtain ⟨t, ht, hx, hframe⟩ := exec_v_of_setV (s := s) (ins := .andReg x y) rfl
    exact ⟨t, ht, fun b => by rw [hx, BitVec.getLsbD_and], hframe⟩
  · obtain ⟨t, ht, hx, hframe⟩ := exec_v_of_setV (s := s) (ins := .xorReg x y) rfl
    exact ⟨t, ht, fun b => by rw [hx, BitVec.getLsbD_xor], hframe⟩

/-- Settles O45: V[x] is written with the masked draw in the state whose counter has gone up by 1. -/
theorem randomByteIsMasked : Obligations.RandomByteIsMasked := by
  refine ⟨fun x kk => decode_of_eq_encode rfl (wordXKK_eq 0xC#4 x kk), fun x kk s => ?_⟩
  have hrnd : exec (.rnd x kk) s = .next (s.draw.2.setV x (Config.freeByte s.draws &&& kk)) := rfl
  refine ⟨_, hrnd, fun b => ?_, rfl, (exec_changesOnly hrnd).mono fun _ => List.mem_pair.mpr⟩
  rw [State.getV_setV, if_pos rfl, BitVec.getLsbD_and]

end Sys2Proof.Machine
end

section
/-! SUPPORT. The index register and the memory transfers (43_index_memory.md): what is left in I, in memory and in the
registers, and the words of class 0xF whose n is ignored. -/

namespace Sys2Proof.Machine

variable {s t : State}

/-- A class-0xF word, written digit by digit, is decoded on its y and n (30_encoding.md R60). -/
theorem decode_classF_word (x y n : Fin 16) :
    decode (wordXYN 0xF x.val y.val n.val) = decodeClassF (formatXYN 0xF#4 x y n) := by
  rw [show wordXYN 0xF x.val y.val n.val = formatXYN 0xF#4 x y n from wordXYN_eq 0xF#4 x y n]
  simp [decode]

/-- The n nibble of LD F, Vx is ignored (D6). -/
theorem decode_ldF_word (x n : Fin 16) : decode (wordXYN 0xF x.val 0x2 n.val) = .ok (.ldF x) :=
  (decode_classF_word x 0x2 n).trans (by simp [decodeClassF, nibbleOf_toNat])

/-- The n nibble of LD B, Vx is ignored (D6). -/
theorem decode_ldB_word (x n : Fin 16) : decode (wordXYN 0xF x.val 0x3 n.val) = .ok (.ldB x) :=
  (decode_classF_word x 0x3 n).trans (by simp [decodeClassF, nibbleOf_toNat])

/-- The n nibble of LD [I], Vx is ignored (D6). -/
theorem decode_stRegs_word (x n : Fin 16) : decode (wordXYN 0xF x.val 0x5 n.val) = .ok (.stRegs x) :=
  (decode_classF_word x 0x5 n).trans (by simp [decodeClassF, nibbleOf_toNat])

/-- The n nibble of LD Vx, [I] is ignored (D6). -/
theorem decode_ldRegs_word (x n : Fin 16) : decode (wordXYN 0xF x.val 0x6 n.val) = .ok (.ldRegs x) :=
  (decode_classF_word x 0x6 n).trans (by simp [decodeClassF, nibbleOf_toNat])

/-! ### The index register -/

/-- The sum of ADD I, Vx wraps at 16 bits, not at 12 (R102). -/
theorem word_add_zextByte_toNat (a : Word) (b : Byte) : (a + zextByte b).toNat = (a.toNat + b.toNat) % 65536 := by
  rw [zextByte, BitVec.toNat_add, BitVec.toNat_setWidth_of_le (by decide)]

/-- The glyph address of a whole byte never wraps (R103). -/
theorem glyphAddress_toNat (b : Byte) : (glyphAddress b).toNat = 0x050 + b.toNat * 5 := by
  have := b.isLt
  simp only [glyphAddress, zextByte]
  bv_omega

/-- An instruction that answers the state with a new I changes I alone. -/
theorem exec_i_of_setI {ins : Instr} {a : Word} (h : exec ins s = .next (s.setI a)) :
    ∃ t, exec ins s = .next t ∧ t.i = a ∧ ChangesOnly s t (· ∈ [Part.i]) :=
  ⟨_, h, s.setI_i a, (changesOnly_setI s a).mono fun _ => List.mem_singleton.mpr⟩

/-! ### The memory transfers -/

/-- Each of the three digits of a byte fits in a byte (R104). -/
theorem decimalDigits_map_toNat (b : Byte) :
    (decimalDigits b).map BitVec.toNat = [b.toNat / 100, b.toNat / 10 % 10, b.toNat % 10] := by
  have := b.isLt
  simp only [decimalDigits, List.map_cons, List.map_nil, BitVec.toNat_ofNat, List.cons.injEq, and_true]
  omega

/-- Digit k of a completed LD B, Vx is read back k bytes above I (R104). -/
theorem exec_ldB_readByte_toNat {x : RegIdx} (h : exec (.ldB x) s = .next t) (k : Fin 3) :
    (t.readByte (s.i.toNat + k.val)).toNat =
      [(s.getV x).toNat / 100, (s.getV x).toNat / 10 % 10, (s.getV x).toNat % 10][k] := by
  obtain ⟨-, rfl⟩ := exec_ldB_eq_next.mp h
  have stored : k.val < (decimalDigits (s.getV x)).length := k.isLt
  rw [State.indexAddress, State.storeBytes_readByte s _ stored]
  simp only [← decimalDigits_map_toNat, Fin.getElem_fin, List.getElem_map]

/-- Register r of a completed LD Vx, [I] is the byte r above I (R106). -/
theorem exec_ldRegs_getV {x r : RegIdx} (h : exec (.ldRegs x) s = .next t) (hr : r ≤ x) :
    t.getV r = s.readByte (s.i.toNat + r.val) := by
  obtain ⟨-, rfl⟩ := exec_ldRegs_eq_next.mp h
  rw [State.getV_loadRegsFrom, if_pos hr, State.indexAddress]

/-! ### The statements -/

/-- Settles O47: the range check, then the store of the three digits, whose frame is theirs. -/
theorem decimalDigitsAreStored : Obligations.DecimalDigitsAreStored := by
  refine ⟨decode_ldB_word, fun x s hi => ?_, fun x s hi => checkRange_fault _ hi⟩
  have hexec := exec_ldB_eq_next (x := x).mpr ⟨hi, rfl⟩
  have digit := exec_ldB_readByte_toNat hexec
  exact ⟨_, hexec, digit 0, digit 1, digit 2, exec_changesOnly hexec⟩

/-- Settles O48: the range check, then the store of the registers up to V[x], whose frame is theirs. -/
theorem registersAreStored : Obligations.RegistersAreStored := by
  refine ⟨decode_stRegs_word, fun x s hi => ?_, fun x s hi => checkRange_fault _ hi⟩
  have hexec := exec_stRegs_eq_next (x := x).mpr ⟨hi, rfl⟩
  exact ⟨_, hexec, fun r => exec_stRegs_readByte hexec, exec_changesOnly hexec⟩

/-- Settles O49: the range check, then the load of the registers up to V[x], whose frame is theirs. -/
theorem registersAreLoaded : Obligations.RegistersAreLoaded := by
  refine ⟨decode_ldRegs_word, fun x s hi => ?_, fun x s hi => checkRange_fault _ hi⟩
  have hexec := exec_ldRegs_eq_next (x := x).mpr ⟨hi, rfl⟩
  exact ⟨_, hexec, fun r => exec_ldRegs_getV hexec, exec_changesOnly hexec⟩

/-- Settles O46: each is one write to I, of the operand, the wrapped sum or the glyph address. -/
theorem indexRegisterInstructions : Obligations.IndexRegisterInstructions := by
  refine ⟨fun nnn x n => ⟨decode_of_eq_encode rfl (wordNNN_eq 0xA#4 nnn),
    decode_of_eq_encode rfl (wordXKK_eq 0xF#4 x 0x1E#8), decode_ldF_word x n⟩,
    fun nnn s => ?_, fun x s => ?_, fun x s => ?_⟩
  · obtain ⟨t, ht, hi, hframe⟩ := exec_i_of_setI (s := s) (ins := .ldI nnn) rfl
    exact ⟨t, ht, by rw [hi, zextAddr_toNat], hframe⟩
  · obtain ⟨t, ht, hi, hframe⟩ := exec_i_of_setI (s := s) (ins := .addI x) rfl
    exact ⟨t, ht, by rw [hi, word_add_zextByte_toNat], hframe⟩
  · obtain ⟨t, ht, hi, hframe⟩ := exec_i_of_setI (s := s) (ins := .ldF x) rfl
    exact ⟨t, ht, by rw [hi, glyphAddress_toNat], hframe⟩

end Sys2Proof.Machine
end

section
/-! SUPPORT. The display, the keys and the timers (44_display_keys_timers.md): a sprite draw pixel by pixel, and what the
key and timer instructions leave. -/

namespace Sys2Proof.Machine

variable {s u : State} {x y : RegIdx}

/-! ### CLS and the sprite draw (R107 to R109) -/

/-- The x nibble of CLS is ignored (D4). -/
theorem decode_cls_word (x : Fin 16) : decode (wordXKK 0x0 x.val 0xE0) = .ok .cls := by
  rw [show wordXKK 0x0 x.val 0xE0 = formatXKK 0x0#4 x 0xE0#8 from wordXKK_eq 0x0#4 x 0xE0#8]
  simp [decode, decodeClass0]

/-- The sprite's `n` bytes at I, placed at the origin, cover the pixels that the closed form names. -/
theorem rowsCover_readBytes (s : State) (x y : RegIdx) (n : Nat) (r : Fin Config.height) (c : Fin Config.width) :
    rowsCover (s.mem.readBytes s.indexAddress n) (s.originRow y) (s.originColumn x) r c = s.spriteCovers x y n r c := by
  have hrow : rowOffset (s.originRow y) r = (r.val + 32 - (s.getV y).toNat % 32) % 32 := by
    simp only [rowOffset, State.originRow, Config.height, Nat.mod_mod]
  have hcol : columnOffset (s.originColumn x) c = (c.val + 64 - (s.getV x).toNat % 64) % 64 := by
    simp only [columnOffset, State.originColumn, Config.width, Nat.mod_mod]
  simp only [rowsCover, State.spriteCovers, ← hrow, ← hcol]
  by_cases hn : rowOffset (s.originRow y) r < n
  · rw [List.getElem?_eq_getElem (by rwa [Memory.readBytes_length]), Memory.readBytes_getElem]
    simp [hn, spriteBit, State.readByte, State.indexAddress]
  · rw [List.getElem?_eq_none (by rw [Memory.readBytes_length]; omega)]
    simp [hn]

theorem flagByte_eq_one_or_zero (b : Bool) : flagByte b = 1 ∨ flagByte b = 0 := by
  cases b <;> simp [flagByte]

theorem flagByte_eq_one_iff (b : Bool) : flagByte b = 1 ↔ b = true := by
  cases b <;> simp [flagByte]

/-- A draw flips the pixels the sprite covers and keeps the others (R108). -/
theorem State.drawSprite_pixel (s : State) (x y : RegIdx) {n : Nat} (hn : n ≤ 32) (r : Fin Config.height)
    (c : Fin Config.width) :
    (s.drawSprite x y n).gfx.pixel r c = (s.gfx.pixel r c ^^ s.spriteCovers x y n r c) := by
  obtain ⟨hpixel, -⟩ := blitRows_spec (s.mem.readBytes s.indexAddress n) (s.originRow y) (s.originColumn x)
    (by rwa [Memory.readBytes_length]) (s.gfx, false)
  rw [← rowsCover_readBytes]
  exact hpixel r c

theorem State.drawSprite_getV_vf (s : State) (x y : RegIdx) (n : Nat) :
    (s.drawSprite x y n).getV vf = flagByte (blitRows (s.mem.readBytes s.indexAddress n) (s.originRow y)
      (s.originColumn x) (s.gfx, false)).2 := by
  simp [State.drawSprite]

/-- VF is 1 after a draw exactly when the sprite covers a pixel that was 1 (R108). -/
theorem State.drawSprite_getV_vf_eq_one_iff (s : State) (x y : RegIdx) {n : Nat} (hn : n ≤ 32) :
    (s.drawSprite x y n).getV vf = 1 ↔ ∃ r c, s.spriteCovers x y n r c = true ∧ s.gfx.pixel r c = true := by
  obtain ⟨-, hflag⟩ := blitRows_spec (s.mem.readBytes s.indexAddress n) (s.originRow y) (s.originColumn x)
    (by rwa [Memory.readBytes_length]) (s.gfx, false)
  rw [State.drawSprite_getV_vf, flagByte_eq_one_iff, hflag]
  simp [rowsCover_readBytes]

/-- Which pixels a sprite covers depends on I, the origin registers and memory alone. -/
theorem State.spriteCovers_congr (hi : u.i = s.i) (hx : u.getV x = s.getV x) (hy : u.getV y = s.getV y)
    (hmem : ∀ a, u.readByte a = s.readByte a) (n : Nat) : u.spriteCovers x y n = s.spriteCovers x y n := by
  funext r c
  simp only [State.spriteCovers, hi, hx, hy, hmem]

/-- DRW that reads a byte past the end of memory faults with the last address it would read (R108). -/
theorem exec_drw_of_out_of_range {n : Fin 16} (hn : 0 < n.val) (h : 0xFFF < s.i.toNat + n.val - 1) :
    exec (.drw x y n) s = .fault (.memoryOutOfRange (s.i.toNat + n.val - 1)) := by
  rw [exec, execDrw, if_neg hn.ne']
  exact checkRange_fault _ h

/-! ### The keys (R110, R111, R113) -/

/-- SKP and SKNP on a byte that names key `k`: the skip alone (R110, R111). -/
theorem skipOnKey_of_key {k : RegIdx} {pressed : Bool} (h : (s.getV x).toNat = k.val) :
    skipOnKey x pressed s = .next (s.skipIf (s.keyDown k == pressed)) :=
  skipOnKey_eq_next.mpr ⟨k, keyOfByte_eq_some.mpr h, rfl⟩

theorem skipOnKey_of_no_key {pressed : Bool} (h : 0xF < (s.getV x).toNat) :
    skipOnKey x pressed s = .fault (.keyIndexOutOfRange (s.getV x)) := by
  rw [skipOnKey, keyOfByte_eq_none.mpr h]
  rfl

/-- The number of a key fits in a register. -/
theorem byte_ofNat_key_toNat (k : RegIdx) : (BitVec.ofNat 8 k.val).toNat = k.val := by
  rw [BitVec.toNat_ofNat]
  omega

/-! ### The statements -/

/-- Settles O51: after the range check, the draw's pixels and its collision flag are those of the closed form. -/
theorem drawFlipsTheSpritesPixels : Obligations.DrawFlipsTheSpritesPixels := by
  refine ⟨fun x y n => decode_of_eq_encode rfl (wordXYN_eq 0xD#4 x y n), fun x y n s hi => ?_,
    fun x y n s => exec_drw_of_out_of_range⟩
  have hn : n.val ≤ 32 := by omega
  have hexec := exec_drw_eq_next (x := x) (y := y).mpr ⟨hi, rfl⟩
  have hflag : (s.drawSprite x y n.val).getV 15 = 1 ∨ (s.drawSprite x y n.val).getV 15 = 0 := by
    rw [State.drawSprite_getV_vf]
    exact flagByte_eq_one_or_zero _
  exact ⟨_, hexec, s.drawSprite_pixel x y hn, hflag, s.drawSprite_getV_vf_eq_one_iff x y hn, rfl,
    exec_changesOnly hexec⟩

/-- Settles O52: both draws cover the same pixels, so each is flipped twice, and a covered pixel is 1 before the second
draw exactly when it was 0 before the first. -/
theorem drawingTwiceRestores : Obligations.DrawingTwiceRestores := by
  intro x y n s t u v hfirst hgfx hi hx hy hmem hsecond
  obtain ⟨-, rfl⟩ := exec_drw_eq_next.mp hfirst
  obtain ⟨-, rfl⟩ := exec_drw_eq_next.mp hsecond
  have hn : n.val ≤ 32 := by omega
  have hcovers : u.spriteCovers x y n.val = s.spriteCovers x y n.val := State.spriteCovers_congr hi hx hy hmem n.val
  have hbetween : ∀ r c, u.gfx.pixel r c = (s.gfx.pixel r c ^^ s.spriteCovers x y n.val r c) := by
    rw [hgfx]
    exact s.drawSprite_pixel x y hn
  refine ⟨Gfx.ext_pixel fun r c => ?_, ?_⟩
  · rw [u.drawSprite_pixel x y hn, hcovers, hbetween, Bool.xor_assoc, Bool.xor_self, Bool.xor_false]
  · rw [u.drawSprite_getV_vf_eq_one_iff x y hn, hcovers]
    refine exists_congr fun r => exists_congr fun c => and_congr_right fun hcovered => ?_
    rw [hbetween, hcovered, Bool.xor_true, Bool.not_eq_true']

/-- Settles O55: the scan answers the lowest pressed key, or no key, and then V[x] or pc alone is written. -/
theorem keyWaitTakesTheLowestKey : Obligations.KeyWaitTakesTheLowestKey := by
  refine ⟨fun x => decode_of_eq_encode rfl (wordXKK_eq 0xF#4 x 0x0A#8), fun x k s hk hlower => ?_, fun x s hnone => ?_⟩
  · have hscan := s.lowestKey_eq_some.mpr ⟨hk, hlower⟩
    obtain ⟨t, ht, hx, hframe⟩ := exec_v_of_setV (exec_ldVxK_eq_next.mpr (.inl ⟨k, hscan, rfl⟩))
    exact ⟨t, ht, by rw [hx, byte_ofNat_key_toNat], hframe⟩
  · exact exec_pc_of_setPc (exec_ldVxK_eq_next.mpr (.inr ⟨s.lowestKey_eq_none.mpr hnone, rfl⟩))

/-- Settles O50: the decoder ignores x, and the new framebuffer is the blank one. -/
theorem clearBlanksTheFramebuffer : Obligations.ClearBlanksTheFramebuffer :=
  ⟨decode_cls_word, fun s => ⟨_, rfl, Gfx.pixel_clear, rfl, changesOnly_setGfx s Gfx.clear⟩⟩

/-- Settles O53: V[x] up to 0xF names a key, and the skip on it moves pc alone; above, it names none. -/
theorem skipOnKey_obligation : Obligations.SkipOnKey := by
  refine ⟨fun x => ⟨decode_of_eq_encode rfl (wordXKK_eq 0xE#4 x 0x9E#8),
    decode_of_eq_encode rfl (wordXKK_eq 0xE#4 x 0xA1#8)⟩, fun x k s h => ⟨?_, ?_⟩,
    fun x s h => ⟨skipOnKey_of_no_key h, skipOnKey_of_no_key h⟩⟩
  · obtain ⟨t, ht, hpc, hframe⟩ := exec_pc_of_skipIf (ins := .skp x) (skipOnKey_of_key h)
    exact ⟨t, ht, by rw [hpc, beq_true], hframe⟩
  · obtain ⟨t, ht, hpc, hframe⟩ := exec_pc_of_skipIf (ins := .sknp x) (skipOnKey_of_key h)
    exact ⟨t, ht, by rw [hpc]; cases s.keyDown k <;> rfl, hframe⟩

/-- Settles O54: each is one write, to V[x], DT or ST. -/
theorem timerInstructions : Obligations.TimerInstructions :=
  ⟨fun x => ⟨decode_of_eq_encode rfl (wordXKK_eq 0xF#4 x 0x07#8), decode_of_eq_encode rfl (wordXKK_eq 0xF#4 x 0x15#8),
      decode_of_eq_encode rfl (wordXKK_eq 0xF#4 x 0x18#8)⟩,
    fun _ _ => exec_v_of_setV rfl,
    fun x s => ⟨_, rfl, s.setDt_dt (s.getV x), (changesOnly_setDt s _).mono fun _ => List.mem_singleton.mpr⟩,
    fun x s => ⟨_, rfl, s.setSt_st (s.getV x), (changesOnly_setSt s _).mono fun _ => List.mem_singleton.mpr⟩⟩

end Sys2Proof.Machine
end

section
/-! SUPPORT. The fault table of 60_exceptions.md R116 against the meanings: what an instruction answers is what the table says. -/

namespace Sys2Proof.Machine

variable {s : State}

/-! ### One instruction and the table -/

/-- The outcome that the fault table asks for: a next state where it names no cause, else that one fault. -/
def Answers (o : Result) : Option Fault → Prop
  | none => ∃ t, o = .next t
  | some cause => o = .fault cause

/-- A row of the table: the fault under its condition, and a next state otherwise. -/
theorem Answers.ite {p : Prop} [Decidable p] {o : Result} {cause : Fault} (hfault : p → o = .fault cause)
    (hnext : ¬ p → ∃ t, o = .next t) : Answers o (if p then some cause else none) := by
  split
  · next h => exact hfault h
  · next h => exact hnext h

theorem Answers.eq_fault_iff {o : Result} {tabled : Option Fault} {cause : Fault} (h : Answers o tabled) :
    o = .fault cause ↔ tabled = some cause := by
  cases tabled with
  | none => obtain ⟨t, rfl⟩ := h; simp
  | some c => obtain rfl : o = .fault c := h; simp

/-- The row of LD B, LD [I] and LD Vx, [I]: an access up to the byte `last` (20_memory.md R44). -/
theorem answers_checkRange (last : Nat) (u : State) :
    Answers (checkRange last (.next u)) (if last > 0xFFF then some (.memoryOutOfRange last) else none) :=
  .ite (checkRange_fault _) fun h => ⟨u, checkRange_ok _ (Nat.le_of_not_lt h)⟩

/-- The row of SKP and SKNP (44 R110, R111). -/
theorem answers_skipOnKey (x : RegIdx) (pressed : Bool) (s : State) :
    Answers (skipOnKey x pressed s)
      (if (s.getV x).toNat > 0xF then some (.keyIndexOutOfRange (s.getV x)) else none) :=
  .ite skipOnKey_of_no_key fun h => ⟨_, skipOnKey_of_key (k := ⟨(s.getV x).toNat, by omega⟩) rfl⟩

theorem exec_ret_completes (h : s.sp.val ≠ 0) : ∃ t, exec .ret s = .next t := by
  obtain ⟨t, ht, -⟩ := exec_ret_of_entry (s := s) (j := ⟨s.sp.val - 1, by omega⟩) (Nat.succ_pred_eq_of_ne_zero h).symm
  exact ⟨t, ht⟩

theorem exec_call_completes {nnn : Addr} (h : s.sp.val ≠ 16) : ∃ t, exec (.call nnn) s = .next t := by
  obtain ⟨t, ht, -⟩ := exec_call_of_room (nnn := nnn) (s := s) (j := ⟨s.sp.val, by omega⟩) rfl
  exact ⟨t, ht⟩

theorem exec_ldVxK_completes (x : RegIdx) (s : State) : ∃ t, exec (.ldVxK x) s = .next t := by
  cases h : s.lowestKey with
  | some k => exact ⟨_, exec_ldVxK_eq_next.mpr (.inl ⟨k, h, rfl⟩)⟩
  | none => exact ⟨_, exec_ldVxK_eq_next.mpr (.inr ⟨h, rfl⟩)⟩

/-- Every instruction answers what the table says, in every state: it is never refused (R116, R119, R121). -/
theorem exec_answers (ins : Instr) (s : State) : Answers (exec ins s) (faultCause s ins) := by
  cases ins with
  | ret => exact .ite exec_ret_of_empty exec_ret_completes
  | call => exact .ite exec_call_of_full exec_call_completes
  | drw =>
    exact .ite (fun ⟨hn, hi⟩ => exec_drw_of_out_of_range hn hi)
      fun h => ⟨_, exec_drw_eq_next.mpr ⟨by simp only [State.indexAddress]; omega, rfl⟩⟩
  | skp x => exact answers_skipOnKey x true s
  | sknp x => exact answers_skipOnKey x false s
  | ldB | stRegs | ldRegs => exact answers_checkRange _ _
  | ldVxK x => exact exec_ldVxK_completes x s
  | _ => exact ⟨_, rfl⟩

theorem exec_eq_fault_iff {ins : Instr} {cause : Fault} :
    exec ins s = .fault cause ↔ faultCause s ins = some cause :=
  (exec_answers ins s).eq_fault_iff

/-- Settles O12: the table's answer, with its cause absent or present. -/
theorem everyInstructionCompletesUnlessItsTabledFault : Obligations.EveryInstructionCompletesUnlessItsTabledFault := by
  refine fun ins s => ⟨fun h => ?_, fun cause => exec_eq_fault_iff.mpr⟩
  have answered := exec_answers ins s
  rwa [h] at answered

/-! ### The step, the load and the codes -/

/-- A Running step faults in its fetch or by the table's row of its instruction, and in no other way. -/
theorem step_eq_fault_iff {cause : Fault} (hr : s.run = .running) :
    Sys2Proof.Machine.step s = .fault cause ↔
      (0xFFF ≤ s.pc.toNat ∧ cause = .fetchOutOfRange s.pc) ∨
      (s.pc.toNat < 0xFFF ∧ ∃ ins, decode s.fetchWord = .ok ins ∧ faultCause s.fetched ins = some cause) := by
  constructor
  · intro h
    obtain halted | ⟨-, hp, hc⟩ | ⟨-, hp, ins, hd, he⟩ := step_fault_cases s h
    · cases hr.symm.trans halted
    · exact .inl ⟨hp, hc⟩
    · exact .inr ⟨hp, ins, hd, exec_eq_fault_iff.mp he⟩
  · rintro (⟨hp, rfl⟩ | ⟨hp, ins, hd, hc⟩)
    · exact step_fetch_fault s hr (s.not_fetchable_iff.mpr hp)
    · rw [step_of_decode hr hp hd, exec_eq_fault_iff, hc]

/-- An open load answers LoadError for an unreadable image and for one that does not fit (70_reset_and_hazards.md R133). -/
theorem transact_load_eq_loadError_iff {image : Option (List Byte)} (hm : s.mayLoad = true) :
    transact (.load image) s = (s, .failed .loadError) ↔
      image = none ∨ ∃ bytes, image = some bytes ∧ 3584 < bytes.length := by
  cases image with
  | none => exact iff_of_true (transact_load_unreadable s hm) (.inl rfl)
  | some bytes =>
    by_cases hl : 3584 < bytes.length
    · exact iff_of_true (transact_load_too_long s hm hl) (.inr ⟨bytes, rfl, hl⟩)
    · rw [transact_load_done s hm (Nat.le_of_not_lt hl)]
      simp [hl]

/-- Settles O11: the step's and the load's conditions, and the codes by their definition. -/
theorem faultsAreExactlyThoseOfTheTable : Obligations.FaultsAreExactlyThoseOfTheTable :=
  ⟨fun _ _ => step_eq_fault_iff, fun _ _ => transact_load_eq_loadError_iff, fun _ _ _ => ⟨rfl, rfl, rfl, rfl, rfl, rfl⟩⟩

end Sys2Proof.Machine
end

section
/-! SUPPORT. The invariant over one host operation, and so over every schedule (60_exceptions.md R123). -/

namespace Sys2Proof.Machine

variable {s : State}

/-- LoadError is no row of the table of step faults: an instruction never raises it (R116, R117). -/
theorem faultCause_ne_loadError (s : State) (ins : Instr) : faultCause s ins ≠ some .loadError := by
  cases ins <;> simp [faultCause]

theorem step_ne_loadError (hr : s.run ≠ .halted .loadError) : Sys2Proof.Machine.step s ≠ .fault .loadError := by
  intro h
  obtain halted | ⟨-, -, hc⟩ | ⟨-, -, ins, -, he⟩ := step_fault_cases s h
  · exact hr halted
  · cases hc
  · exact faultCause_ne_loadError _ ins (exec_eq_fault_iff.mp he)

/-- The invariant looks at memory, pc, the stack and the run state alone. -/
theorem State.Inv.of_eq {t : State} (hi : s.Inv) (hmem : t.mem = s.mem) (hpc : t.pc = s.pc) (hstack : t.stack = s.stack)
    (hrun : t.run = s.run) : t.Inv := by
  rwa [State.Inv, hmem, hpc, hstack, hrun]

theorem State.Inv.run_ne_loadError (hi : s.Inv) : s.run ≠ .halted .loadError := by
  obtain ⟨-, -, -, hr⟩ := hi
  exact hr

theorem State.Inv.halt {cause : Fault} (hi : s.Inv) (hc : cause ≠ .loadError) : (s.halt cause).Inv := by
  obtain ⟨hm, hp, hs, -⟩ := hi
  exact ⟨hm, hp, hs, by simpa using hc⟩

/-- A step that completes keeps the invariant, one that faults halts with a cause other than LoadError. -/
theorem State.Inv.stepBlock (hi : s.Inv) : s.stepBlock.1.Inv := by
  cases h : Sys2Proof.Machine.step s with
  | next t => rw [stepBlock_next s h]; exact everyStepKeepsTheInvariant s t hi h
  | fault cause =>
    rw [stepBlock_fault s h]
    exact hi.halt fun hc => step_ne_loadError hi.run_ne_loadError (hc ▸ h)
  | refused why => rwa [State.stepBlock, h]

/-- An image that fits at 0x200 is copied inside the 4096 bytes. -/
theorem State.Inv.load (hi : s.Inv) (image : Option (List Byte)) : (transact (.load image) s).1.Inv := by
  obtain e | ⟨bytes, hl, e⟩ := transact_load_cases s image <;> rw [e]
  · exact hi
  · obtain ⟨hm, hp, hs, hr⟩ := hi
    exact ⟨Memory.wf_writeBytes _ _ _ hm (by rw [programBase, lastAddress]; omega), hp, hs, hr⟩

theorem State.Inv.tick (hi : s.Inv) : (transact .tick s).1.Inv := by
  cases hr : s.run with
  | running => rw [transact_tick_running s hr]; exact hi.of_eq rfl rfl rfl rfl
  | halted cause => rwa [transact_tick_halted s hr]

theorem State.Inv.setKey (hi : s.Inv) (symbol : Nat) (pressed : Bool) :
    (transact (.setKey symbol pressed) s).1.Inv := by
  by_cases hk : symbol < 16
  · rw [transact_setKey_done s ⟨symbol, hk⟩]; exact hi.of_eq rfl rfl rfl rfl
  · rwa [transact_setKey_refused s pressed (Nat.le_of_not_lt hk)]

/-- Every host operation keeps the invariant, whatever it answers. -/
theorem transact_inv (op : HostOp) (s : State) (hi : s.Inv) : (transact op s).1.Inv := by
  cases op with
  | reset => exact resetMeetsTheInvariant.of_eq rfl rfl rfl rfl
  | load image => exact hi.load image
  | step => exact hi.stepBlock
  | tick => exact hi.tick
  | setKey symbol pressed => exact hi.setKey symbol pressed

/-- Settles O24, by induction on the schedule: each operation keeps the invariant. -/
theorem everyScheduleKeepsTheInvariant : Obligations.EveryScheduleKeepsTheInvariant :=
  fun ops s => transactAll_induct s State.Inv transact_inv ops

end Sys2Proof.Machine
end

section
/-! SUPPORT. Ticks and key events (60_exceptions.md R122, R125). -/

namespace Sys2Proof.Machine

variable {s : State}

/-! ### tick -/

theorem transact_tick_timers (hr : s.run = .running) :
    (transact .tick s).1.dt.toNat = s.dt.toNat - 1 ∧ (transact .tick s).1.st.toNat = s.st.toNat - 1 := by
  rw [transact_tick_running s hr]
  exact ⟨decay_toNat s.dt, decay_toNat s.st⟩

theorem transact_tick_run (s : State) : (transact .tick s).1.run = s.run :=
  changesOnly_tick s .run (by simp)

theorem transact_tick_edge (hr : s.run = .running) :
    (transact .tick s).2 = .ticked (decide (0 < s.st.toNat)) := by
  rw [transact_tick_running s hr]

/-- Of the ticks in a row, number `j` finds ST lowered by `j`, so the edge is signalled exactly while `j` is below ST. -/
theorem transactAll_ticks (n : Nat) (hr : s.run = .running) :
    (transactAll (List.replicate n .tick) s).2 =
      (List.range n).map fun j => .ticked (decide (j < s.st.toNat)) := by
  induction n generalizing s with
  | zero => rfl
  | succ n ih =>
    have later := ih ((transact_tick_run s).trans hr)
    rw [(transact_tick_timers hr).2] at later
    rw [List.replicate_succ, transactAll_cons, transact_tick_edge hr, later, List.range_succ_eq_map, List.map_cons,
      List.map_map]
    simp only [Function.comp_def, Nat.lt_sub_iff_add_lt, Nat.succ_eq_add_one]

/-- Settles O27: one tick by its equation in either run state, the row of ticks by induction on their number. -/
theorem tickDecaysBothTimers : Obligations.TickDecaysBothTimers := by
  refine ⟨fun s _ => transact_tick_halted s, fun s hr => ?_, fun s n => transactAll_ticks n⟩
  obtain ⟨hdt, hst⟩ := transact_tick_timers hr
  exact ⟨transact_tick_edge hr, hdt, hst, (changesOnly_tick s).mono fun p => by simp⟩

/-! ### set_key -/

/-- The write of one entry of the key matrix leaves the other 15. -/
theorem changesOnly_key (s : State) (k : RegIdx) (pressed : Bool) :
    ChangesOnly s { s with key := s.key.set k.val pressed k.isLt } (· ∈ [Part.key k]) := by
  intro p hp
  cases p with
  | key j =>
    have hne : k.val ≠ j.val := fun e => hp (by simp [Fin.ext e])
    exact Vector.getElem_set_ne k.isLt j.isLt hne
  | _ => rfl

/-- Settles O28: a symbol below 16 is an index of the matrix, and its entry alone is written. -/
theorem setKeyWritesOneKey : Obligations.SetKeyWritesOneKey :=
  ⟨fun s k pressed => ⟨_, transact_setKey_done s k pressed, Vector.getElem_set_self k.isLt, changesOnly_key s k pressed⟩,
    fun s _ pressed => transact_setKey_refused s pressed⟩

end Sys2Proof.Machine
end

section
/-! SUPPORT. Load: what it copies, and that no operation but reset opens it again (70_reset_and_hazards.md R133, R134). -/

namespace Sys2Proof.Machine

variable {s t : State}

/-! ### The copy (R133) -/

/-- A load that is done closes the load and writes the bytes of its image alone. -/
theorem changesOnly_load_image (s : State) (bytes : List Byte) :
    ChangesOnly s { s.storeBytes programBase bytes with loadOpen := false }
      (fun p => p = .loadOpen ∨ ∃ a, 0x200 ≤ a ∧ a < 0x200 + bytes.length ∧ p = .byte a) := by
  intro p hp
  cases p with
  | loadOpen => exact absurd (.inl rfl) hp
  | byte a =>
    exact changesOnly_storeBytes s programBase bytes (.byte a) fun ⟨b, ⟨hlow, hhigh⟩, hb⟩ =>
      hp (.inr ⟨b, hlow, hhigh, hb⟩)
  | _ => rfl

/-- Settles O29: a readable image that fits is the store of its bytes at 0x200; every other one is LoadError. -/
theorem loadCopiesTheImageOrLeavesTheState : Obligations.LoadCopiesTheImageOrLeavesTheState := by
  refine ⟨fun s bytes hm hl => ⟨_, transact_load_done s hm hl, fun k hk => ?_, changesOnly_load_image s bytes⟩,
    fun s _ => transact_load_too_long s, transact_load_unreadable⟩
  rw [List.getElem?_eq_getElem hk]
  exact congrArg some (State.storeBytes_readByte s programBase hk)

/-! ### A closed load stays closed until the next reset (R134) -/

theorem not_mayWrite_loadOpen (ins : Instr) : ¬ mayWrite s ins .loadOpen := by
  cases ins <;> simp [mayWrite]

/-- The fetch closes the load, and no instruction opens it. -/
theorem step_loadOpen (h : Sys2Proof.Machine.step s = .next t) : t.loadOpen = false :=
  step_unchanged_since_fetch (p := .loadOpen) h fun ins _ => not_mayWrite_loadOpen ins

/-- The fault table answers for every instruction, so no instruction is refused. -/
theorem exec_ne_refused (ins : Instr) (s : State) (why : Refusal) : exec ins s ≠ .refused why := by
  intro h
  have answered := exec_answers ins s
  rw [h] at answered
  cases hc : faultCause s ins with
  | none => rw [hc] at answered; obtain ⟨t, ht⟩ := answered; cases ht
  | some cause => rw [hc] at answered; cases answered

/-- A step answers a next state or a fault, in every state. -/
theorem step_ne_refused (s : State) (why : Refusal) : Sys2Proof.Machine.step s ≠ .refused why := by
  cases hr : s.run with
  | halted cause => rw [step_halted s hr]; nofun
  | running =>
    cases hf : s.fetchable with
    | false => rw [step_fetch_fault s hr hf]; nofun
    | true =>
      rw [step_running s hr hf]
      cases hd : decode s.fetchWord with
      | ok ins => rw [executeWord_ok _ hd]; exact exec_ne_refused ins _ why
      | error e => rw [executeWord_undefined _ hd]; nofun

theorem mayLoad_of_closed (h : s.loadOpen = false) : s.mayLoad = false := by simp [State.mayLoad, h]

theorem mayLoad_halt (s : State) (cause : Fault) : (s.halt cause).mayLoad = false := by simp [State.mayLoad]

/-- Whether a load is accepted depends on the load field and the run state alone. -/
theorem mayLoad_of_unchanged (hopen : Unchanged s t .loadOpen) (hrun : Unchanged s t .run) : t.mayLoad = s.mayLoad := by
  rw [State.mayLoad, State.mayLoad, show t.loadOpen = s.loadOpen from hopen, show t.run = s.run from hrun]

/-- No load is accepted after a step: one that completes closes the load, one that faults leaves the block Halted. -/
theorem mayLoad_step (s : State) : (transact .step s).1.mayLoad = false := by
  rw [transact_step]
  cases h : Sys2Proof.Machine.step s with
  | next t => rw [stepBlock_next s h]; exact mayLoad_of_closed (step_loadOpen h)
  | fault cause => rw [stepBlock_fault s h]; exact mayLoad_halt s cause
  | refused why => exact absurd h (step_ne_refused s why)

/-- No load is accepted after a load that was done. -/
theorem mayLoad_load {bytes : List Byte} (h : (transact (.load (some bytes)) s).2 = .done) :
    (transact (.load (some bytes)) s).1.mayLoad = false := by
  cases hm : s.mayLoad with
  | false => rw [transact_load_refused s _ hm] at h; cases h
  | true =>
    by_cases hl : 3584 < bytes.length
    · rw [transact_load_too_long s hm hl] at h; cases h
    · rw [transact_load_done s hm (Nat.le_of_not_lt hl)]; exact mayLoad_of_closed rfl

/-- Every operation but reset keeps a load refused. -/
theorem transact_keeps_load_refused {op : HostOp} (hop : op ≠ .reset) (h : s.mayLoad = false) :
    (transact op s).1.mayLoad = false := by
  cases op with
  | reset => exact absurd rfl hop
  | load image => rwa [transact_load_refused s image h]
  | step => exact mayLoad_step s
  | tick => rwa [mayLoad_of_unchanged (changesOnly_tick s _ (by simp)) (changesOnly_tick s _ (by simp))]
  | setKey symbol pressed =>
    have frame := changesOnly_setKey s symbol pressed
    rwa [mayLoad_of_unchanged (frame _ (by simp)) (frame _ (by simp))]

/-- Every schedule without a reset keeps a load refused. -/
theorem transactAll_keeps_load_refused {ops : List HostOp} (hops : ∀ op ∈ ops, op ≠ .reset) (h : s.mayLoad = false) :
    (transactAll ops s).1.mayLoad = false := by
  induction ops generalizing s with
  | nil => exact h
  | cons op ops ih =>
    obtain ⟨hop, hops⟩ := List.forall_mem_cons.mp hops
    exact ih hops (transact_keeps_load_refused hop h)

/-- Settles O30: the first operation closes the load, and the rest of the schedule, by induction, keeps it so. -/
theorem loadIsAcceptedOnce : Obligations.LoadIsAcceptedOnce := by
  refine ⟨fun _ => rfl, fun s first ops image hfirst hops => transact_load_refused _ image ?_⟩
  have closed : (transact first s).1.mayLoad = false := by
    obtain rfl | ⟨bytes, rfl, hdone⟩ := hfirst
    · exact mayLoad_step s
    · exact mayLoad_load hdone
  rw [transactAll_cons]
  exact transactAll_keeps_load_refused hops closed

end Sys2Proof.Machine
end

section
/-! SUPPORT. A jump to itself: its step, and that the state after it is a fixed point (70_reset_and_hazards.md R137). -/

namespace Sys2Proof.Machine

variable {s : State}

/-- Running, with the word 1nnn at pc = nnn and both its bytes inside memory (R137). -/
structure State.AtSelfJump (s : State) (nnn : Addr) : Prop where
  running : s.run = .running
  pc_eq : s.pc.toNat = nnn.toNat
  fetchable : s.pc.toNat < 0xFFF
  word : s.fetchWord = wordNNN 0x1 nnn.toNat

/-- The fetch with pc put back: what a jump to itself leaves. -/
def State.selfJumped (s : State) : State := s.fetched.setPc s.pc

/-- The step of a jump to itself is the fetch, after which the jump puts pc back. -/
theorem State.AtSelfJump.step_eq {nnn : Addr} (h : s.AtSelfJump nnn) :
    Sys2Proof.Machine.step s = .next s.selfJumped := by
  have decoded : decode s.fetchWord = .ok (.jp nnn) := by
    obtain ⟨decodes, -⟩ := jumpGoesToItsTarget
    rw [h.word, decodes]
  have target : zextAddr nnn = s.pc := BitVec.eq_of_toNat_eq ((zextAddr_toNat nnn).trans h.pc_eq.symm)
  calc Sys2Proof.Machine.step s
    _ = exec (.jp nnn) s.fetched := step_of_decode h.running h.fetchable decoded
    _ = .next (s.fetched.setPc (zextAddr nnn)) := rfl
    _ = .next s.selfJumped := by rw [target, State.selfJumped]

/-- The run state, pc and memory are as before, so the same jump comes next. -/
theorem State.AtSelfJump.selfJumped {nnn : Addr} (h : s.AtSelfJump nnn) : s.selfJumped.AtSelfJump nnn :=
  ⟨h.running, h.pc_eq, h.fetchable, h.word⟩

/-- A second jump to itself changes nothing more. -/
theorem State.selfJumped_selfJumped (s : State) : s.selfJumped.selfJumped = s.selfJumped := rfl

theorem changesOnly_selfJumped (s : State) :
    ChangesOnly s s.selfJumped (· ∈ [Part.opcode, .redraw, .loadOpen]) := by
  intro p hp
  cases p with
  | opcode | redraw | loadOpen => exact absurd (by simp) hp
  | _ => rfl

/-- A run whose first step answers a next state goes on from there. -/
theorem run_succ_of_next {M : Host.Core} {a b : M.State} (h : M.step a = .next b) (k : Nat) :
    M.run (k + 1) a = M.run k b := by
  rw [Host.Core.run, h]

/-- Any number of steps from a state that steps to itself ends in that state. -/
theorem run_of_fixed {M : Host.Core} {a : M.State} (h : M.step a = .next a) (k : Nat) : M.run k a = .next a := by
  induction k with
  | zero => rfl
  | succ k ih => rw [run_succ_of_next h, ih]

/-- Settles O31: the first step reaches the state that a jump to itself leaves, and each later one stays there. -/
theorem selfJumpRepeatsForever : Obligations.SelfJumpRepeatsForever := by
  intro s nnn hr hpc hp hw
  have here : s.AtSelfJump nnn := ⟨hr, hpc, hp, hw⟩
  have fixed : Sys2Proof.Machine.step s.selfJumped = .next s.selfJumped := by
    rw [here.selfJumped.step_eq, State.selfJumped_selfJumped]
  exact ⟨s.selfJumped, fun k => (run_succ_of_next here.step_eq k).trans (run_of_fixed fixed k), rfl, rfl,
    changesOnly_selfJumped s⟩

end Sys2Proof.Machine
end
